-- ==== Sys2Proof/Word.lean ====
section
/-! DEFINITION. The units of data the QOI codec pipeline moves: bytes, pixels and the widths of its registers. -/

namespace Sys2Proof

/-- A byte, the only unit of the byte streams (spec/20_memory.md R54). -/
abbrev Byte := BitVec 8

/-- A 6-bit slot number of the pixel cache (spec/10_state.md R22). -/
abbrev Slot := BitVec 6

/-- A width or a height, `DIM_BITS` = 32 (spec/00_scope.md R5). -/
abbrev Dim := BitVec 32

/-- A pixel counter or a pixel total, `PIXCNT_BITS` = 64 (spec/00_scope.md R5). -/
abbrev Count := BitVec 64

/-- A Pixel: four unsigned 8-bit channels (spec/00_scope.md R8).
Two Pixels are equal exactly when all four channels are. -/
structure Pixel where
  r : Byte
  g : Byte
  b : Byte
  a : Byte
deriving DecidableEq, Repr

/-- "transparent black", `(0,0,0,0)` (spec/00_scope.md R8). -/
def Pixel.transparentBlack : Pixel := ⟨0, 0, 0, 0⟩

/-- "opaque black", `(0,0,0,255)` (spec/00_scope.md R8). -/
def Pixel.opaqueBlack : Pixel := ⟨0, 0, 0, 255⟩

/-- The packing of a Pixel in a 32-bit word, `r ++ g ++ b ++ a` (spec/10_state.md R22); not observable by any step. -/
def Pixel.toWord (p : Pixel) : BitVec 32 := p.r ++ p.g ++ p.b ++ p.a

end Sys2Proof
end

