-- ==== Sys2Proof/Config.lean ====
section
/-! DEFINITION. What the spec fixes for this hardware once and for all: the parameters of spec/00_scope.md R5.
The spec leaves no value open that a step uses, so there is no free value here. -/

namespace Sys2Proof.Config

/-- Slots of the pixel cache, `CACHE_SLOTS`. -/
abbrev cacheSlots : Nat := 64

/-- Largest run one RUN chunk carries, `RUN_MAX`. -/
abbrev runMax : Nat := 62

/-- Bytes of the header, `HEADER_LEN`. -/
abbrev headerLen : Nat := 14

/-- Bytes of the trailer, `TRAILER_LEN`. -/
abbrev trailerLen : Nat := 8

/-- `MAGIC`, the four characters "qoif"; the byte values are their ASCII codes (spec/30_encoding.md R81;
PRESUMED, log 7). -/
def magic : List Byte := [0x71, 0x6F, 0x69, 0x66]

/-- The trailer pattern the encoder emits (spec/30_encoding.md R82). -/
def trailer : List Byte := [0, 0, 0, 0, 0, 0, 0, 1]

/-- `CHANNELS_LEGAL`: the channel count is 3 or 4. -/
def legalChannels (c : Byte) : Bool := c == 3 || c == 4

end Sys2Proof.Config
end

