-- ==== Sys2Proof/Syntax.lean ====
section
/-! DEFINITION. The instruction set: the eight units of the byte stream (spec/30_encoding.md R80, R94), one constructor
per row of spec/opcode_table.json. Operands are those of the listing syntax: decoded, without their bias. -/

namespace Sys2Proof

/-- A unit of the byte stream. -/
inductive Instr
  /-- HEADER w h c s: width, height, channels, colorspace (R81). -/
  | header (w h : Dim) (c s : Byte)
  /-- INDEX idx: the cache slot (R83). -/
  | index (idx : Slot)
  /-- DIFF dr dg db: three channel deltas in -2..1 (R84). -/
  | diff (dr dg db : Int)
  /-- LUMA dg drg dbg: the green delta in -32..31, and dr-dg, db-dg in -8..7 (R85). -/
  | luma (dg drg dbg : Int)
  /-- RUN n: the run length 1..62, not the stored payload (R86). -/
  | run (n : Nat)
  /-- RGB r g b: three raw channels (R87). -/
  | rgb (r g b : Byte)
  /-- RGBA r g b a: four raw channels (R88). -/
  | rgba (r g b a : Byte)
  /-- TRAILER: the end of the stream (R82). -/
  | trailer
deriving DecidableEq, Repr

end Sys2Proof
end

