-- ==== Sys2Proof/WellFormed.lean ====
section
/-! DEFINITION. Which units exist: the operand ranges of spec/30_encoding.md R89 and R94. -/

namespace Sys2Proof

/-- `lo ≤ v ≤ hi`. -/
def inRange (lo hi v : Int) : Bool := decide (lo ≤ v) && decide (v ≤ hi)

/-- The operands are in the ranges the formats can carry (R89); a header carries 3 or 4 channels (R81). -/
def Instr.wellFormed : Instr → Bool
  | .header _ _ c _ => Config.legalChannels c
  | .index _ => true
  | .diff dr dg db => inRange (-2) 1 dr && inRange (-2) 1 dg && inRange (-2) 1 db
  | .luma dg drg dbg => inRange (-32) 31 dg && inRange (-8) 7 drg && inRange (-8) 7 dbg
  | .run n => decide (1 ≤ n) && decide (n ≤ Config.runMax)
  | .rgb _ _ _ => true
  | .rgba _ _ _ _ => true
  | .trailer => true

/-- `Instr.wellFormed` as a proposition. -/
abbrev Instr.WellFormed (i : Instr) : Prop := i.wellFormed = true

end Sys2Proof
end

