-- ==== Sys2Proof/Decode.lean ====
section
/-! DEFINITION. The encoding of the byte stream (spec/30_encoding.md): the decoder from bytes to units, and the encoder
from units to bytes. A unit is recognised by its POSITION (R80): the first 14 bytes are the header, the 8 bytes after the
chunk that completes the pixel count are the trailer, and everything between is a chunk, known by its tag byte (R90). -/

namespace Sys2Proof

/-- Where in a stream the next unit stands (R80). -/
inductive Position
  | header
  | chunk
  | trailer
deriving DecidableEq, Repr

/-- Why the bytes at hand give no unit. -/
inductive Reject
  /-- Fewer bytes than the unit needs (R112, R114, R200); whether that is an error depends on the end of input (R52). -/
  | short
  /-- The first four bytes of a header are not the magic (R112, R231). -/
  | badMagic
deriving DecidableEq, Repr

/-- The six kinds of chunk (R80). -/
inductive ChunkKind
  | index
  | diff
  | luma
  | run
  | rgb
  | rgba
deriving DecidableEq, Repr

/-- `v[lo+width-1:lo]`, an unsigned field of a byte (spec/00_scope.md R6). -/
def bitField (v : Byte) (lo width : Nat) : BitVec width := v.extractLsb' lo width

/-- An unsigned field with its bias subtracted (R89). -/
def unbias {n : Nat} (field : BitVec n) (bias : Int) : Int := (field.toNat : Int) - bias

/-- The unsigned field that stores a signed quantity with its bias added (R89). -/
def rebias (n : Nat) (v : Int) (bias : Int) : BitVec n := BitVec.ofInt n (v + bias)

/-- A big-endian `u32` from its four bytes (spec/20_memory.md R54). -/
def fromBigEndian (b3 b2 b1 b0 : Byte) : Dim := b3 ++ b2 ++ b1 ++ b0

/-- The four bytes of a `u32`, most significant first (spec/20_memory.md R54). -/
def toBigEndian (v : Dim) : List Byte :=
  [v.extractLsb' 24 8, v.extractLsb' 16 8, v.extractLsb' 8 8, v.extractLsb' 0 8]

/-- Tag dispatch, sentinels first (R90): total on the 256 byte values. -/
def tagKind (t : Byte) : ChunkKind :=
  if t = 0xFF then .rgba
  else if t = 0xFE then .rgb
  else if bitField t 6 2 = 0b11 then .run
  else if bitField t 6 2 = 0b00 then .index
  else if bitField t 6 2 = 0b01 then .diff
  else .luma

/-- The length of a chunk in bytes, a function of its kind alone (R91). -/
def chunkLength : ChunkKind → Nat
  | .index => 1
  | .diff => 1
  | .luma => 2
  | .run => 1
  | .rgb => 4
  | .rgba => 5

/-- The header's fields after the magic: width, height, channels, colorspace (R81, R112). -/
def decodeHeaderFields : List Byte → Except Reject (Instr × List Byte)
  | w3 :: w2 :: w1 :: w0 :: h3 :: h2 :: h1 :: h0 :: c :: s :: rest =>
    .ok (.header (fromBigEndian w3 w2 w1 w0) (fromBigEndian h3 h2 h1 h0) c s, rest)
  | _ => .error .short

/-- The header (R112): the magic is compared as a group once four bytes are in, and only then are ten more needed. -/
def decodeHeader : List Byte → Except Reject (Instr × List Byte)
  | m0 :: m1 :: m2 :: m3 :: rest =>
    if [m0, m1, m2, m3] = Config.magic then decodeHeaderFields rest else .error .badMagic
  | _ => .error .short

/-- The trailer (R114): any eight bytes; they are not compared. -/
def decodeTrailer : List Byte → Except Reject (Instr × List Byte)
  | _ :: _ :: _ :: _ :: _ :: _ :: _ :: _ :: rest => .ok (.trailer, rest)
  | _ => .error .short

/-- The second byte of a LUMA chunk whose first byte is `t` (R85). -/
def decodeLuma (t : Byte) : List Byte → Except Reject (Instr × List Byte)
  | s :: rest =>
    .ok (.luma (unbias (bitField t 0 6) 32) (unbias (bitField s 4 4) 8) (unbias (bitField s 0 4) 8), rest)
  | [] => .error .short

/-- The raw bytes of an RGB chunk (R87). -/
def decodeRgb : List Byte → Except Reject (Instr × List Byte)
  | r :: g :: b :: rest => .ok (.rgb r g b, rest)
  | _ => .error .short

/-- The raw bytes of an RGBA chunk (R88). -/
def decodeRgba : List Byte → Except Reject (Instr × List Byte)
  | r :: g :: b :: a :: rest => .ok (.rgba r g b a, rest)
  | _ => .error .short

/-- The chunk whose tag byte is `t`; `rest` are the bytes after it (R83 to R88). -/
def decodeTagged (t : Byte) (rest : List Byte) : Except Reject (Instr × List Byte) :=
  match tagKind t with
  | .rgba => decodeRgba rest
  | .rgb => decodeRgb rest
  | .run => .ok (.run ((bitField t 0 6).toNat + 1), rest)
  | .index => .ok (.index (bitField t 0 6), rest)
  | .diff => .ok (.diff (unbias (bitField t 4 2) 2) (unbias (bitField t 2 2) 2) (unbias (bitField t 0 2) 2), rest)
  | .luma => decodeLuma t rest

/-- A chunk (R191): one tag byte and the bytes its kind needs. -/
def decodeChunk : List Byte → Except Reject (Instr × List Byte)
  | t :: rest => decodeTagged t rest
  | [] => .error .short

/-- The unit at the head of a byte sequence, and the bytes after it. -/
def decode : Position → List Byte → Except Reject (Instr × List Byte)
  | .header, bs => decodeHeader bs
  | .chunk, bs => decodeChunk bs
  | .trailer, bs => decodeTrailer bs

/-- Where in a stream a unit stands (R80). -/
def Instr.position : Instr → Position
  | .header _ _ _ _ => .header
  | .index _ => .chunk
  | .diff _ _ _ => .chunk
  | .luma _ _ _ => .chunk
  | .run _ => .chunk
  | .rgb _ _ _ => .chunk
  | .rgba _ _ _ _ => .chunk
  | .trailer => .trailer

/-! ## The encoder -/

/-- The byte of a RUN chunk: tag `11` and the run less one (R86). -/
def encodeRun (n : Nat) : Byte := (0b11#2 ++ BitVec.ofNat 6 (n - 1) : BitVec 8)

/-- The byte of an INDEX chunk: tag `00` and the slot (R83). -/
def encodeIndex (idx : Slot) : Byte := (0b00#2 ++ idx : BitVec 8)

/-- The byte of a DIFF chunk: tag `01` and three biased deltas, red highest (R84). -/
def encodeDiff (dr dg db : Int) : Byte :=
  (0b01#2 ++ rebias 2 dr 2 ++ rebias 2 dg 2 ++ rebias 2 db 2 : BitVec 8)

/-- The two bytes of a LUMA chunk: tag `10` and the biased green delta, then the two biased differences (R85). -/
def encodeLuma (dg drg dbg : Int) : List Byte :=
  [(0b10#2 ++ rebias 6 dg 32 : BitVec 8), (rebias 4 drg 8 ++ rebias 4 dbg 8 : BitVec 8)]

/-- The bytes of a unit, first byte first (R81 to R88). -/
def encode : Instr → List Byte
  | .header w h c s => Config.magic ++ toBigEndian w ++ toBigEndian h ++ [c, s]
  | .index idx => [encodeIndex idx]
  | .diff dr dg db => [encodeDiff dr dg db]
  | .luma dg drg dbg => encodeLuma dg drg dbg
  | .run n => [encodeRun n]
  | .rgb r g b => [0xFE, r, g, b]
  | .rgba r g b a => [0xFF, r, g, b, a]
  | .trailer => Config.trailer

/-! ## Words as spec/opcode_table.json numbers them -/

/-- The longest unit, in bytes: the header. -/
def longestUnit : Nat := Config.headerLen

/-- `n` bytes of a number, the first byte in its LEAST significant bits. -/
def littleBytes (n w : Nat) : List Byte := (List.range n).map fun k => BitVec.ofNat 8 (w >>> (8 * k))

/-- `n` bytes of a number, the first byte in its MOST significant bits. -/
def bigBytes (n w : Nat) : List Byte := (littleBytes n w).reverse

/-- The header row's fixed bits: the table numbers the magic as one 32-bit word, first byte most significant. -/
def tableMagic : Nat := 0x716F6966

/-- The position of the unit a row of the table gives: a row of 112 bits, or one that begins with the table's magic word,
is the header; a row of 64 bits is the trailer; every other row is a chunk. -/
def tablePosition (nbits w : Nat) : Position :=
  if nbits = 112 ∨ (32 ≤ nbits ∧ w % 2 ^ 32 = tableMagic) then .header
  else if nbits = 64 then .trailer
  else .chunk

/-- The bytes of a unit whose bits are `w`, numbered as the table numbers them, with zeros above `nbits` up to the
longest unit. The words of a chunk are bytes. The table writes the header and the trailer as big-endian words (32-bit
words and two flag bytes; one 64-bit word), so their words are laid out most significant byte first.
DESIGN CHOICE, log 8: a header number that does not begin with the table's magic word is read byte by byte. -/
def tableBytes (nbits w : Nat) : List Byte :=
  let v := w % 2 ^ nbits
  match tablePosition nbits w with
  | .chunk => littleBytes longestUnit v
  | .trailer => bigBytes Config.trailerLen v ++ littleBytes (longestUnit - Config.trailerLen) 0
  | .header =>
    if v % 2 ^ 32 = tableMagic then
      bigBytes 4 v ++ bigBytes 4 (v >>> 32) ++ bigBytes 4 (v >>> 64) ++ littleBytes 2 (v >>> 96)
    else littleBytes longestUnit v

/-- The unit the decoder reads from the bits of a row of spec/opcode_table.json; none where it refuses. -/
def decodeTableWord (nbits w : Nat) : Option Instr :=
  match decode (tablePosition nbits w) (tableBytes nbits w) with
  | .ok (i, _) => some i
  | .error _ => none

end Sys2Proof
end

