-- ==== Sys2Proof/Machine/State.lean ====
section
/-! DEFINITION. The state of the block (spec/10_state.md R20 to R36): two contexts that share nothing, the four streams
as lists (log 1), and the moves still to come (log 2, log 3). State is plain data. -/

namespace Sys2Proof.Machine

open Sys2Proof

/-- The phases of ENC (spec/10_state.md R30). -/
inductive EncPhase
  | idle
  | header
  | pixels
  | trailer
  | done
  | error
deriving DecidableEq, Repr

/-- The phases of DEC (spec/10_state.md R30). -/
inductive DecPhase
  | idle
  | header
  | chunks
  | trailer
  | done
  | error
deriving DecidableEq, Repr

/-- The error kinds (spec/60_exceptions.md R230). -/
inductive ErrCode
  | none
  | format
  | truncated
  | unsupportedChannel
  | runOverrun
deriving DecidableEq, Repr

/-- The 64-slot pixel cache (spec/10_state.md R22). -/
abbrev Cache := Vector Pixel Config.cacheSlots

/-- A cache whose every slot is transparent black (spec/10_state.md R33). -/
def emptyCache : Cache := Vector.replicate Config.cacheSlots Pixel.transparentBlack

/-- The encoder context (spec/10_state.md R32). -/
structure Enc where
  width : Dim
  height : Dim
  channels : Byte
  colorspace : Byte
  total : Count
  pos : Count
  run : BitVec 6
  prev : Pixel
  cache : Cache
  phase : EncPhase
  err : ErrCode
deriving DecidableEq, Repr

/-- The decoder context (spec/10_state.md R32). -/
structure Dec where
  width : Dim
  height : Dim
  channels : Byte
  colorspace : Byte
  hdrValid : Bool
  total : Count
  count : Count
  prev : Pixel
  cache : Cache
  phase : DecPhase
  err : ErrCode
deriving DecidableEq, Repr

/-- A byte on BOUT with its end marker `bout_last` (spec/20_memory.md R52). -/
structure ByteOut where
  byte : Byte
  last : Bool
deriving DecidableEq, Repr

/-- A Pixel on POUT with its end marker `pout_last` (spec/20_memory.md R52). -/
structure PixelOut where
  pixel : Pixel
  last : Bool
deriving DecidableEq, Repr

/-- The two contexts (spec/10_state.md R20). -/
inductive Context
  | enc
  | dec
deriving DecidableEq, Repr

/-- A move of one of the agents: the host, the sources, or a context taking its enabled step
(spec/70_reset_and_hazards.md R262, spec/60_exceptions.md R243; log 2). -/
inductive Move
  /-- `rst` (R260). -/
  | reset
  /-- `enc_start` with its four operands (R110). -/
  | encStart (w h : Dim) (c s : Byte)
  /-- `dec_start` (R111). -/
  | decStart
  /-- The pixel source presents Pixels on PIN (R262). -/
  | pixels (ps : List Pixel)
  /-- The byte source presents bytes on BIN (R262). -/
  | bytes (bs : List Byte)
  /-- The byte source raises `bin_end` (R52). -/
  | endBytes
  /-- Between calls, the pixel source withdraws the Pixels not taken (log 4). -/
  | dropPixels
  /-- Between calls, the byte source withdraws the bytes not taken (R238; log 4). -/
  | dropBytes
  /-- A context takes its enabled step, if it has one (R243). -/
  | turn (c : Context)
deriving DecidableEq, Repr

/-- The whole state. -/
structure State where
  enc : Enc
  dec : Dec
  pin : List Pixel
  bin : List Byte
  binEnd : Bool
  bout : List ByteOut
  pout : List PixelOut
  agenda : List Move
  turn : Context
deriving DecidableEq, Repr

/-- The machine stops with a fault: NEVER. The spec gives the block no unrecoverable condition: "every failure is
representable as a typed error value" (spec/60_exceptions.md R230), and such a value is a next state (`raise`). -/
inductive Fault
deriving DecidableEq, Repr

/-- Moves the model does not have. -/
inductive Refusal
  /-- Raised by `exec` alone, for a unit without a meaning; safe. No arm of this model raises it. -/
  | notModelled (mnemonic : String)
  /-- Raised by a meaning asked of a state whose phase does not enable its step: "No other transition exists"
  (spec/10_state.md R30). Safe; `step` never asks. DESIGN CHOICE, log 6. -/
  | stepNotEnabled
  /-- Raised by `step` when the byte source presents bytes in a call that it has ended with `bin_end`: the environment has
  no such move (spec/93_implementation_defined.md U16). Safe. DESIGN CHOICE, log 4. -/
  | bytesAfterEnd
  /-- Raised by `step` when a source withdraws units in the middle of a call: a sender holds its data stable and does not
  change the sequence once started (spec/20_memory.md R51, spec/70_reset_and_hazards.md R262). Safe. DESIGN CHOICE, log 4. -/
  | withdrawnInCall
deriving DecidableEq, Repr

/-- ENC after hardware reset (spec/10_state.md R32, R34). -/
def Enc.reset : Enc :=
  { width := 0, height := 0, channels := 0, colorspace := 0, total := 0, pos := 0, run := 0,
    prev := Pixel.opaqueBlack, cache := emptyCache, phase := .idle, err := .none }

/-- DEC after hardware reset (spec/10_state.md R32, R34). -/
def Dec.reset : Dec :=
  { width := 0, height := 0, channels := 0, colorspace := 0, hdrValid := false, total := 0, count := 0,
    prev := Pixel.opaqueBlack, cache := emptyCache, phase := .idle, err := .none }

/-- The machine right after reset (spec/70_reset_and_hazards.md R260): both contexts reset, nothing on any stream
and no move to come (DESIGN CHOICE, logs 1 to 4). -/
def State.reset : State :=
  { enc := Enc.reset, dec := Dec.reset, pin := [], bin := [], binEnd := false, bout := [], pout := [],
    agenda := [], turn := .enc }

end Sys2Proof.Machine
end

