-- ==== Sys2Proof/Machine/Flags.lean ====
section
/-! DEFINITION. The status the block shows: error codes, the level status bits, and the registers the host may read
(spec/10_state.md R31, R32; spec/60_exceptions.md R230, R239). No unit reads or writes a flag; all of this is a function
of the state, and reading it changes nothing. -/

namespace Sys2Proof.Machine

open Sys2Proof

/-- The 3-bit value of an error kind in the `err` register (R230). -/
def errValue : ErrCode → BitVec 3
  | .none => 0
  | .format => 1
  | .truncated => 2
  | .unsupportedChannel => 3
  | .runOverrun => 4

/-- `enc_busy` (R31). -/
def encBusy (e : Enc) : Bool := !(e.phase == .idle || e.phase == .done || e.phase == .error)

/-- `enc_done` (R31). -/
def encDone (e : Enc) : Bool := e.phase == .done

/-- `enc_error` (R31). -/
def encError (e : Enc) : Bool := e.phase == .error

/-- `dec_busy` (R31). -/
def decBusy (d : Dec) : Bool := !(d.phase == .idle || d.phase == .done || d.phase == .error)

/-- `dec_done` (R31). -/
def decDone (d : Dec) : Bool := d.phase == .done

/-- `dec_error` (R31). -/
def decError (d : Dec) : Bool := d.phase == .error

/-- What the host may read: the registers marked "read" in R32 and the status levels of R239. -/
inductive HostReg
  | encWidth
  | encHeight
  | encChannels
  | encColorspace
  | encPos
  | encErr
  | encBusy
  | encDone
  | encError
  | decWidth
  | decHeight
  | decChannels
  | decColorspace
  | decHdrValid
  | decCount
  | decErr
  | decBusy
  | decDone
  | decError
deriving DecidableEq, Repr

/-- One bit as the host reads it. -/
def bitValue (b : Bool) : BitVec 64 := if b then 1 else 0

/-- The value the host reads, zero-extended (R32, R239). -/
def hostRead (s : State) : HostReg → BitVec 64
  | .encWidth => s.enc.width.setWidth 64
  | .encHeight => s.enc.height.setWidth 64
  | .encChannels => s.enc.channels.setWidth 64
  | .encColorspace => s.enc.colorspace.setWidth 64
  | .encPos => s.enc.pos
  | .encErr => (errValue s.enc.err).setWidth 64
  | .encBusy => bitValue (Machine.encBusy s.enc)
  | .encDone => bitValue (Machine.encDone s.enc)
  | .encError => bitValue (Machine.encError s.enc)
  | .decWidth => s.dec.width.setWidth 64
  | .decHeight => s.dec.height.setWidth 64
  | .decChannels => s.dec.channels.setWidth 64
  | .decColorspace => s.dec.colorspace.setWidth 64
  | .decHdrValid => bitValue s.dec.hdrValid
  | .decCount => s.dec.count
  | .decErr => (errValue s.dec.err).setWidth 64
  | .decBusy => bitValue (Machine.decBusy s.dec)
  | .decDone => bitValue (Machine.decDone s.dec)
  | .decError => bitValue (Machine.decError s.dec)

end Sys2Proof.Machine
end

