-- ==== Sys2Proof/Machine/Operands.lean ====
section
/-! DEFINITION. Operand formation: the pure arithmetic of spec/41_hash_delta.md and the operand fetch of EncPixel
(spec/42_encoder.md R150). These functions read their operands and nothing else. -/

namespace Sys2Proof.Machine

open Sys2Proof

/-- `index_of(p)`, the cache slot of a Pixel (R130): the weighted sum of the unsigned channels, modulo 64. -/
def indexOf (p : Pixel) : Slot :=
  BitVec.ofNat 6 (p.r.toNat * 3 + p.g.toNat * 5 + p.b.toNat * 7 + p.a.toNat * 11)

/-- `delta8(x, y)`, the signed 8-bit difference, wrapping (R132). -/
def delta8 (x y : Byte) : Int := (x - y).toInt

/-- `wrap8(y + d)`, the wrapping add of the decoder (R133). -/
def wrapAdd (y : Byte) (d : Int) : Byte := BitVec.ofInt 8 (y.toNat + d)

/-- `fits_diff(dr, dg, db)` (R134). -/
def fitsDiff (dr dg db : Int) : Bool := inRange (-2) 1 dr && inRange (-2) 1 dg && inRange (-2) 1 db

/-- `fits_luma(dr, dg, db)`, the second differences taken as mathematical integers (R135). -/
def fitsLuma (dr dg db : Int) : Bool :=
  inRange (-32) 31 dg && inRange (-8) 7 (dr - dg) && inRange (-8) 7 (db - dg)

/-- A pixel moved by three channel deltas, alpha unchanged (R196, R197). -/
def addDeltas (p : Pixel) (dr dg db : Int) : Pixel := ⟨wrapAdd p.r dr, wrapAdd p.g dg, wrapAdd p.b db, p.a⟩

/-- The working pixel of EncPixel: with 3 channels the input's alpha is replaced by 255 (R150). -/
def workingPixel (channels : Byte) (q : Pixel) : Pixel := if channels = 3 then ⟨q.r, q.g, q.b, 255⟩ else q

/-- `total = width * height`, the full 64-bit product (spec/10_state.md R25). -/
def pixelTotal (w h : Dim) : Count := w.setWidth 64 * h.setWidth 64

/-- `last`: the pixel about to be coded is the last of the image (R150). -/
def isLast (e : Enc) : Bool := e.pos == e.total - 1

end Sys2Proof.Machine
end

