-- ==== Sys2Proof/Machine/Ops.lean ====
section
/-! DEFINITION. The named operations over the state: the cache, the streams, raising an error and starting afresh, and
the enabling condition of each step. -/

namespace Sys2Proof.Machine

open Sys2Proof

/-! ## The pixel cache (spec/20_memory.md R59) -/

/-- `x[i]`. -/
def readSlot (c : Cache) (i : Slot) : Pixel := c.get i.toFin

/-- `x[i] <- p`: the whole slot is replaced. -/
def writeSlot (c : Cache) (i : Slot) (p : Pixel) : Cache := c.set i.toNat p i.isLt

/-! ## Parts of the state -/

/-- The state with another encoder context. -/
def withEnc (e : Enc) (s : State) : State := { s with enc := e }

/-- The state with another decoder context. -/
def withDec (d : Dec) (s : State) : State := { s with dec := d }

/-! ## Streams (spec/00_scope.md R7) -/

/-- Bytes with `bout_last` low. -/
def plainBytes (bs : List Byte) : List ByteOut := bs.map fun b => ⟨b, false⟩

/-- The bytes of the trailer: `bout_last` is high with the last one (spec/20_memory.md R52). -/
def finalBytes : List Byte → List ByteOut
  | [] => []
  | [b] => [⟨b, true⟩]
  | b :: bs => ⟨b, false⟩ :: finalBytes bs

/-- `MemWrite(BOUT, n, v)`: units appended to BOUT, first byte first. -/
def emitBytes (bs : List ByteOut) (s : State) : State := { s with bout := s.bout ++ bs }

/-- What is left on BIN after a read: reads are destructive (spec/20_memory.md R56). -/
def leaveBytes (rest : List Byte) (s : State) : State := { s with bin := rest }

/-- What is left on PIN after a read. -/
def leavePixels (rest : List Pixel) (s : State) : State := { s with pin := rest }

/-- The POUT units of `n` copies of `p`: `pout_last` is high with the copy that makes `count = total`
(spec/43_decoder.md R194, R198). -/
def pixelUnits (d : Dec) (n : Nat) (p : Pixel) : List PixelOut :=
  (List.range n).map fun k => ⟨p, d.count.toNat + k + 1 == d.total.toNat⟩

/-- `MemWrite(POUT, n, p)` and `DEC.count <- DEC.count + n` (R194, R198). -/
def deliver (n : Nat) (p : Pixel) (s : State) : State :=
  { s with
    pout := s.pout ++ pixelUnits s.dec n p
    dec := { s.dec with count := s.dec.count + BitVec.ofNat 64 n } }

/-- `DEC.prev <- p`. -/
def setPrev (p : Pixel) (s : State) : State := withDec { s.dec with prev := p } s

/-- `x[index_of(p)] <- p` in DEC's cache. -/
def storePixel (p : Pixel) (s : State) : State :=
  withDec { s.dec with cache := writeSlot s.dec.cache (indexOf p) p } s

/-- The common tail of RGBA, RGB, DIFF and LUMA (spec/43_decoder.md R198). -/
def postUpdate (p : Pixel) (s : State) : State := deliver 1 p (setPrev p (storePixel p s))

/-! ## Raising an error, and the ways out of ERROR -/

/-- `raise E` in a context (spec/60_exceptions.md R234): the code and the phase, and nothing else. -/
def raise (c : Context) (code : ErrCode) (s : State) : State :=
  match c with
  | .enc => withEnc { s.enc with err := code, phase := .error } s
  | .dec => withDec { s.dec with err := code, phase := .error } s

/-- ENC with its running state at the call-initial values (spec/10_state.md R33). -/
def encReinit (e : Enc) : Enc :=
  { e with prev := Pixel.opaqueBlack, cache := emptyCache, run := 0, pos := 0, err := .none }

/-- DEC with its running state at the call-initial values and its header registers cleared
(spec/10_state.md R29, R33). -/
def decReinit (d : Dec) : Dec :=
  { d with
    width := 0, height := 0, channels := 0, colorspace := 0, hdrValid := false, total := 0
    prev := Pixel.opaqueBlack, cache := emptyCache, count := 0, err := .none }

/-- Hardware reset (spec/70_reset_and_hazards.md R260): every register of both contexts; what was delivered stays
delivered and what the sources hold is theirs. -/
def hardwareReset (s : State) : State := { s with enc := Enc.reset, dec := Dec.reset }

/-! ## Enabling (spec/10_state.md R30) -/

/-- EncPixel is enabled: PIXELS and `pos < total` (spec/42_encoder.md R150). -/
def encPixelEnabled (e : Enc) : Bool := e.phase == .pixels && decide (e.pos < e.total)

/-- EncFinish is enabled: PIXELS and `pos = total` (spec/40_header_trailer.md R113). -/
def encFinishEnabled (e : Enc) : Bool := e.phase == .pixels && e.pos == e.total

/-- DecHeader is enabled (spec/40_header_trailer.md R112). -/
def decHeaderEnabled (d : Dec) : Bool := d.phase == .header

/-- DecChunk is enabled: CHUNKS and `count < total` (spec/43_decoder.md R191). -/
def decChunkEnabled (d : Dec) : Bool := d.phase == .chunks && decide (d.count < d.total)

/-- DecTrailer is enabled: CHUNKS and `count = total` (spec/40_header_trailer.md R114). -/
def decTrailerEnabled (d : Dec) : Bool := d.phase == .chunks && d.count == d.total

/-- A step that exists only when it is enabled (spec/10_state.md R30). -/
def whenEnabled (enabled : Bool) (t : State) : Host.Outcome State Fault Refusal :=
  if enabled then .next t else .refused .stepNotEnabled

end Sys2Proof.Machine
end

