-- ==== Sys2Proof/Machine/Chunks.lean ====
section
/-! DEFINITION. The six chunk kinds as the decoder executes them, their bytes read (spec/43_decoder.md R192 to R201). -/

namespace Sys2Proof.Machine

open Sys2Proof

/-- INDEX (R195): a read-only lookup; no store. -/
def execIndex (idx : Slot) (s : State) : Host.Outcome State Fault Refusal :=
  let p := readSlot s.dec.cache idx
  whenEnabled (decChunkEnabled s.dec) (deliver 1 p (setPrev p s))

/-- DIFF (R196): wrapping adds to `prev`, alpha unchanged. -/
def execDiff (dr dg db : Int) (s : State) : Host.Outcome State Fault Refusal :=
  whenEnabled (decChunkEnabled s.dec) (postUpdate (addDeltas s.dec.prev dr dg db) s)

/-- LUMA (R197): the red and blue deltas are relative to the green one. -/
def execLuma (dg drg dbg : Int) (s : State) : Host.Outcome State Fault Refusal :=
  whenEnabled (decChunkEnabled s.dec) (postUpdate (addDeltas s.dec.prev (dg + drg) dg (dg + dbg)) s)

/-- RUN (R194): `prev`, `n` times; past the pixel count RunOverrunError and nothing of the chunk (R201).
The sum is exact (DEDUCED, log 7). -/
def execRun (n : Nat) (s : State) : Host.Outcome State Fault Refusal :=
  whenEnabled (decChunkEnabled s.dec)
    (if s.dec.total.toNat < s.dec.count.toNat + n then raise .dec .runOverrun s else deliver n s.dec.prev s)

/-- RGB (R193): three raw channels, alpha from `prev`. -/
def execRgb (r g b : Byte) (s : State) : Host.Outcome State Fault Refusal :=
  whenEnabled (decChunkEnabled s.dec) (postUpdate ⟨r, g, b, s.dec.prev.a⟩ s)

/-- RGBA (R192): four raw channels. -/
def execRgba (r g b a : Byte) (s : State) : Host.Outcome State Fault Refusal :=
  whenEnabled (decChunkEnabled s.dec) (postUpdate ⟨r, g, b, a⟩ s)

end Sys2Proof.Machine
end

