-- ==== Sys2Proof/Machine/Framing.lean ====
section
/-! DEFINITION. The framing units HEADER and TRAILER in both directions, and the two start steps
(spec/40_header_trailer.md). -/

namespace Sys2Proof.Machine

open Sys2Proof

/-- ENC as `EncStart` leaves it before the channel test: operands latched, running state call-initial (R110). -/
def encLatched (w h : Dim) (c s : Byte) (e : Enc) : Enc :=
  { encReinit e with width := w, height := h, channels := c, colorspace := s, total := pixelTotal w h }

/-- `EncStart(w, h, c, s)` (R110): ignored while ENC is busy; otherwise it latches its operands and either raises
UnsupportedChannelError or emits HEADER. -/
def encStart (w h : Dim) (c s : Byte) (st : State) : State :=
  if encBusy st.enc then st
  else
    let latched := withEnc (encLatched w h c s st.enc) st
    if Config.legalChannels c then
      emitBytes (plainBytes (encode (.header w h c s))) (withEnc { latched.enc with phase := .pixels } latched)
    else raise .enc .unsupportedChannel latched

/-- `DecStart` (R111): ignored while DEC is busy. The byte source lowers `bin_end` with an accepted start
(spec/20_memory.md R52; DEDUCED, log 4). -/
def decStart (st : State) : State :=
  if decBusy st.dec then st
  else withDec { decReinit st.dec with phase := .header } { st with binEnd := false }

/-- `EncFinish` (R113): emit TRAILER, `bout_last` with its last byte. -/
def encFinish (st : State) : State :=
  emitBytes (finalBytes (encode .trailer)) (withEnc { st.enc with phase := .done } st)

/-- DEC with the header registers of a parsed header (R112). -/
def headerLatched (w h : Dim) (c s : Byte) (d : Dec) : Dec :=
  { d with
    width := w, height := h, channels := c, colorspace := s, total := pixelTotal w h
    hdrValid := true, phase := .chunks }

/-- HEADER (R112), its 14 bytes read and its magic matched: the channel test, then the header registers. -/
def execHeader (w h : Dim) (c s : Byte) (st : State) : Host.Outcome State Fault Refusal :=
  whenEnabled (decHeaderEnabled st.dec)
    (if Config.legalChannels c then withDec (headerLatched w h c s st.dec) st
     else raise .dec .unsupportedChannel st)

/-- TRAILER (R114), its 8 bytes read and not compared. -/
def execTrailer (st : State) : Host.Outcome State Fault Refusal :=
  whenEnabled (decTrailerEnabled st.dec) (withDec { st.dec with phase := .done } st)

end Sys2Proof.Machine
end

