-- ==== Sys2Proof/Machine/Dispatch.lean ====
section
/-! DEFINITION. What each unit of the byte stream does when the decoder context executes it: one arm per row of
spec/opcode_table.json. -/

namespace Sys2Proof.Machine

open Sys2Proof

def exec (i : Instr) (s : State) : Host.Outcome State Fault Refusal :=
  match i with
  | .header w h c sp => Sys2Proof.Machine.execHeader w h c sp s
  | .index idx => Sys2Proof.Machine.execIndex idx s
  | .diff dr dg db => Sys2Proof.Machine.execDiff dr dg db s
  | .luma dg drg dbg => Sys2Proof.Machine.execLuma dg drg dbg s
  | .run n => Sys2Proof.Machine.execRun n s
  | .rgb r g b => Sys2Proof.Machine.execRgb r g b s
  | .rgba r g b a => Sys2Proof.Machine.execRgba r g b a s
  | .trailer => Sys2Proof.Machine.execTrailer s

end Sys2Proof.Machine
end

