-- ==== Sys2Proof/Machine/Encoder.lean ====
section
/-! DEFINITION. `EncPixel`: what the encoder does with one input pixel (spec/42_encoder.md R150 to R162). The step emits
units, and a unit's bytes are `encode`'s. -/

namespace Sys2Proof.Machine

open Sys2Proof

/-- DIFF, LUMA or RGB for a pixel whose alpha is `prev`'s (R157 to R160), DIFF tested first, then LUMA. -/
def deltaUnit (prev p : Pixel) : Instr :=
  let dr := delta8 p.r prev.r
  let dg := delta8 p.g prev.g
  let db := delta8 p.b prev.b
  if fitsDiff dr dg db then .diff dr dg db
  else if fitsLuma dr dg db then .luma dg (dr - dg) (db - dg)
  else .rgb p.r p.g p.b

/-- The lookup hits: the slot of `p` holds exactly `p` (R155). -/
def cacheHit (c : Cache) (p : Pixel) : Bool := readSlot c (indexOf p) == p

/-- The chunk of a pixel that differs from `prev`: INDEX on a hit, else by alpha RGBA or a delta unit (R155, R157). -/
def encUnit (e : Enc) (p : Pixel) : Instr :=
  if cacheHit e.cache p then .index (indexOf p)
  else if p.a = e.prev.a then deltaUnit e.prev p
  else .rgba p.r p.g p.b p.a

/-- The cache after a pixel that differs from `prev`: written on a miss, kept on a hit (R155, R156). -/
def encCache (e : Enc) (p : Pixel) : Cache :=
  if cacheHit e.cache p then e.cache else writeSlot e.cache (indexOf p) p

/-- The RUN chunk of a pending run, if there is one (R154). -/
def pendingRun (e : Enc) : List Instr := if 0 < e.run then [.run e.run.toNat] else []

/-- The run is flushed in this step: the counter, just incremented, is 62, or the pixel is the last (R152). -/
def flushesRun (e : Enc) : Bool := e.run + 1 == BitVec.ofNat 6 Config.runMax || isLast e

/-- The units one pixel `p` makes the encoder emit (R151), at most two. -/
def encPixelUnits (e : Enc) (p : Pixel) : List Instr :=
  if p = e.prev then (if flushesRun e then [.run (e.run + 1).toNat] else [])
  else pendingRun e ++ [encUnit e p]

/-- ENC after one pixel `p` (R151, R152, R162). -/
def encPixelState (e : Enc) (p : Pixel) : Enc :=
  if p = e.prev then { e with run := if flushesRun e then 0 else e.run + 1, pos := e.pos + 1 }
  else { e with run := 0, cache := encCache e p, prev := p, pos := e.pos + 1 }

/-- `EncPixel` on the input pixel `q`, taken from PIN (R150, R151). -/
def encPixel (q : Pixel) (s : State) : State :=
  let p := workingPixel s.enc.channels q
  emitBytes (plainBytes ((encPixelUnits s.enc p).flatMap encode)) (withEnc (encPixelState s.enc p) s)

end Sys2Proof.Machine
end

