-- ==== Sys2Proof/Machine/Turn.lean ====
section
/-! DEFINITION. One turn of each context, and the moves of the host and of the sources: what a step of the machine does.
Waiting is not failing (spec/70_reset_and_hazards.md R266): a turn whose input has not arrived changes nothing. -/

namespace Sys2Proof.Machine

open Sys2Proof

/-- The unit DEC is to take next: none in IDLE, DONE and ERROR (spec/10_state.md R30, spec/43_decoder.md R190). -/
def decPosition (d : Dec) : Option Position :=
  if decHeaderEnabled d then some .header
  else if decChunkEnabled d then some .chunk
  else if decTrailerEnabled d then some .trailer
  else none

/-- A read that found fewer bytes than its unit needs (spec/20_memory.md R52): with `bin_end` high the bytes left are
consumed and TruncatedInputError is raised (R200, R232); otherwise DEC waits. -/
def decShort (s : State) : State :=
  if s.binEnd then raise .dec .truncated (leaveBytes [] s) else s

/-- The four bytes read are not the magic (spec/40_header_trailer.md R112): they are consumed and FormatError is
raised. -/
def decBadMagic (s : State) : State := raise .dec .format (leaveBytes (s.bin.drop 4) s)

/-- The bytes at the head of BIN read as a unit at `pos`, and that unit executed with its bytes consumed. -/
def decFetch (pos : Position) (s : State) : Host.Outcome State Fault Refusal :=
  match decode pos s.bin with
  | .ok (i, rest) => exec i (leaveBytes rest s)
  | .error .short => .next (decShort s)
  | .error .badMagic => .next (decBadMagic s)

/-- DEC takes its enabled step, if it has one: DecHeader, DecChunk or DecTrailer. -/
def decTurn (s : State) : Host.Outcome State Fault Refusal :=
  match decPosition s.dec with
  | none => .next s
  | some pos => decFetch pos s

/-- EncPixel on the Pixel presented on PIN; with none presented ENC waits (spec/42_encoder.md R150). -/
def encTake (s : State) : State :=
  match s.pin with
  | [] => s
  | q :: rest => encPixel q (leavePixels rest s)

/-- ENC takes its enabled step, if it has one: EncPixel or EncFinish. -/
def encTurn (s : State) : State :=
  if encPixelEnabled s.enc then encTake s
  else if encFinishEnabled s.enc then encFinish s
  else s

/-- A turn of a context (spec/60_exceptions.md R243). -/
def contextTurn (c : Context) (s : State) : Host.Outcome State Fault Refusal :=
  match c with
  | .enc => .next (encTurn s)
  | .dec => decTurn s

/-- The byte source presents bytes. Between calls it always may, whatever `bin_end` (spec/70_reset_and_hazards.md R262):
nothing takes them before the next `DecStart`. In a call that it has ended with `bin_end` it has no such move
(spec/93_implementation_defined.md U16; log 4). -/
def presentBytes (bs : List Byte) (s : State) : Host.Outcome State Fault Refusal :=
  if s.binEnd && decBusy s.dec then .refused .bytesAfterEnd else .next { s with bin := s.bin ++ bs }

/-- The pixel source presents Pixels; those past the image's count are simply not taken (U14). -/
def presentPixels (ps : List Pixel) (s : State) : State := { s with pin := s.pin ++ ps }

/-- The byte source withdraws what no call has taken, between calls (spec/60_exceptions.md R238). -/
def withdrawBytes (s : State) : Host.Outcome State Fault Refusal :=
  if decBusy s.dec then .refused .withdrawnInCall else .next (leaveBytes [] s)

/-- The pixel source withdraws what no call has taken, between calls. -/
def withdrawPixels (s : State) : Host.Outcome State Fault Refusal :=
  if encBusy s.enc then .refused .withdrawnInCall else .next (leavePixels [] s)

/-- The byte source raises `bin_end` (spec/20_memory.md R52). -/
def raiseBinEnd (s : State) : State := { s with binEnd := true }

/-- One move of one agent. -/
def performMove (m : Move) (s : State) : Host.Outcome State Fault Refusal :=
  match m with
  | .reset => .next (hardwareReset s)
  | .encStart w h c sp => .next (encStart w h c sp s)
  | .decStart => .next (decStart s)
  | .pixels ps => .next (presentPixels ps s)
  | .bytes bs => presentBytes bs s
  | .endBytes => .next (raiseBinEnd s)
  | .dropPixels => withdrawPixels s
  | .dropBytes => withdrawBytes s
  | .turn c => contextTurn c s

/-- The other context: with no move to come the contexts take turns (DESIGN CHOICE, log 3). -/
def otherContext : Context → Context
  | .enc => .dec
  | .dec => .enc

/-- The next move and the state it is made in: the head of the agenda, or a turn of the context whose turn it is. -/
def nextMove (s : State) : Move × State :=
  match s.agenda with
  | m :: rest => (m, { s with agenda := rest })
  | [] => (.turn s.turn, { s with turn := otherContext s.turn })

/-- DEC ready to take the unit at a position: phase and counts as after the header of a 64 x 1 image, none of it decoded
yet, or, for the trailer, of a 0 x 0 image (DESIGN CHOICE, log 8). -/
def decAwaiting (pos : Position) (d : Dec) : Dec :=
  match pos with
  | .header => { d with phase := .header }
  | .chunk => { headerLatched 64 1 4 0 d with count := 0 }
  | .trailer => { headerLatched 0 0 4 0 d with count := 0 }

/-- The state in which the very next step is DEC's and takes the unit at `pos` from the bytes `bs` (log 8). -/
def awaiting (pos : Position) (bs : List Byte) (s : State) : State :=
  { s with dec := decAwaiting pos s.dec, bin := bs, agenda := .turn .dec :: s.agenda }

end Sys2Proof.Machine
end

