-- ==== Sys2Proof/Machine/Step.lean ====
section
/-! DEFINITION. One step of the machine, and the placing of a unit where the next step takes it. -/

namespace Sys2Proof.Machine

open Sys2Proof

/-- One step: the next move, made. -/
def step (s : State) : Host.Outcome State Fault Refusal :=
  performMove (nextMove s).1 (nextMove s).2

/-- `s` with the unit of the given bits on BIN, DEC ready for it, and DEC's turn next (log 8). -/
def State.withFetchWord (s : State) (nbits w : Nat) : State :=
  awaiting (tablePosition nbits w) (tableBytes nbits w) s

end Sys2Proof.Machine
end

