-- ==== Sys2Proof/Safety.lean ====
section
/-! DEFINITION. The terms in which claims about the block are stated: the invariants of spec/10_state.md R37, the states
a run reaches, the result of a call, and the lockstep of the two contexts (spec/43_decoder.md R203). -/

namespace Sys2Proof.Machine

open Sys2Proof

/-! ## Invariants -/

/-- A slot holds transparent black or a pixel whose index is the slot's number (R37 c). -/
abbrev cacheHonest (c : Cache) : Prop :=
  ∀ i : Slot, readSlot c i = Pixel.transparentBlack ∨ indexOf (readSlot c i) = i

/-- With 3 channels the encoder holds opaque pixels only (R37 d). -/
abbrev opaqueWhenThree (e : Enc) : Prop :=
  e.channels = 3 →
    e.prev.a = 255 ∧ ∀ i : Slot, readSlot e.cache i = Pixel.transparentBlack ∨ (readSlot e.cache i).a = 255

/-- The invariants of spec/10_state.md R37, in its order. -/
abbrev registerInv (s : State) : Prop :=
  s.enc.run.toNat ≤ 61
    ∧ (s.enc.pos ≤ s.enc.total ∧ s.dec.count ≤ s.dec.total)
    ∧ (cacheHonest s.enc.cache ∧ cacheHonest s.dec.cache)
    ∧ opaqueWhenThree s.enc
    ∧ ((s.enc.err ≠ .none ↔ s.enc.phase = .error) ∧ (s.dec.err ≠ .none ↔ s.dec.phase = .error))

/-- ENC between steps: no phase HEADER or TRAILER (R30), `total` is the product (R25), a call in progress or done has a
legal channel count (R110), the run is flushed when the last pixel is coded (R113), and DONE means all pixels. -/
abbrev encCallInv (e : Enc) : Prop :=
  (e.phase ≠ .header ∧ e.phase ≠ .trailer)
    ∧ e.total = pixelTotal e.width e.height
    ∧ ((e.phase = .pixels ∨ e.phase = .done) → Config.legalChannels e.channels = true)
    ∧ (e.pos = e.total → e.run = 0)
    ∧ (e.phase = .done → e.pos = e.total)

/-- DEC between steps: no phase TRAILER (R30), `total` is the product (R26), the header registers are a legal header's
when `hdr_valid` and 0 otherwise (R29), chunks are taken only after a header, and DONE means all pixels. -/
abbrev decCallInv (d : Dec) : Prop :=
  d.phase ≠ .trailer
    ∧ d.total = pixelTotal d.width d.height
    ∧ (d.hdrValid = true → Config.legalChannels d.channels = true)
    ∧ (d.hdrValid = false → d.width = 0 ∧ d.height = 0 ∧ d.channels = 0 ∧ d.colorspace = 0)
    ∧ ((d.phase = .chunks ∨ d.phase = .done) → d.hdrValid = true)
    ∧ ((d.phase = .idle ∨ d.phase = .header) → d.hdrValid = false)
    ∧ (d.phase = .done → d.count = d.total)

/-- Both contexts between steps. -/
abbrev callInv (s : State) : Prop := encCallInv s.enc ∧ decCallInv s.dec

/-- All of it. The two belong together: that `count ≤ total` survives the latching of a new `total` rests on a call whose
header is not yet read having delivered nothing. -/
abbrev machineInv (s : State) : Prop := registerInv s ∧ callInv s

/-! ## Reset -/

/-- Every register at its hardware reset value, the last column of spec/10_state.md R32. -/
abbrev resetValues (s : State) : Prop :=
  (s.enc.width = 0 ∧ s.enc.height = 0 ∧ s.enc.channels = 0 ∧ s.enc.colorspace = 0 ∧ s.enc.total = 0 ∧ s.enc.pos = 0
      ∧ s.enc.run = 0 ∧ s.enc.prev = ⟨0, 0, 0, 255⟩ ∧ (∀ i : Slot, readSlot s.enc.cache i = ⟨0, 0, 0, 0⟩)
      ∧ s.enc.phase = .idle ∧ s.enc.err = .none)
    ∧ s.dec.width = 0 ∧ s.dec.height = 0 ∧ s.dec.channels = 0 ∧ s.dec.colorspace = 0 ∧ s.dec.hdrValid = false
      ∧ s.dec.total = 0 ∧ s.dec.count = 0 ∧ s.dec.prev = ⟨0, 0, 0, 255⟩
      ∧ (∀ i : Slot, readSlot s.dec.cache i = ⟨0, 0, 0, 0⟩) ∧ s.dec.phase = .idle ∧ s.dec.err = .none

/-- The move made is a turn of the context `c`: the agenda's head, or, with the agenda empty, the context whose turn it is
(logs 2 and 3). -/
abbrev takesTurn (c : Context) (s : State) : Prop :=
  (∃ rest, s.agenda = .turn c :: rest) ∨ (s.agenda = [] ∧ s.turn = c)

/-- The context a move concerns; the reset concerns both. -/
def moveSide : Move → Option Context
  | .reset => none
  | .encStart _ _ _ _ => some .enc
  | .decStart => some .dec
  | .pixels _ => some .enc
  | .bytes _ => some .dec
  | .endBytes => some .dec
  | .dropPixels => some .enc
  | .dropBytes => some .dec
  | .turn c => some c

/-! ## Runs -/

/-- The states the machine can be in, whatever the host and the sources do after reset. -/
inductive Reachable : State → Prop
  | start (moves : List Move) : Reachable { State.reset with agenda := moves }
  | step {s t : State} (before : Reachable s) (taken : step s = .next t) : Reachable t

/-- Units executed one after another, stopping at the first that gives no next state. -/
def execUnits : List Instr → State → Host.Outcome State Fault Refusal
  | [], s => .next s
  | i :: rest, s =>
    match exec i s with
    | .next t => execUnits rest t
    | .fault r => .fault r
    | .refused r => .refused r

/-- The moves of a whole encode call of `ps`: start, the pixels, and a turn for each pixel and for the trailer. -/
def encodeCall (w h : Dim) (c sp : Byte) (ps : List Pixel) : List Move :=
  .encStart w h c sp :: .pixels ps :: List.replicate (ps.length + 1) (.turn .enc)

/-- The moves of a whole decode call of `bs` with `n` turns: start, the bytes, `bin_end`, the turns. -/
def decodeCall (bs : List Byte) (n : Nat) : List Move :=
  .decStart :: .bytes bs :: .endBytes :: List.replicate n (.turn .dec)

/-! ## Results (spec/70_reset_and_hazards.md R263, spec/60_exceptions.md R241) -/

/-- What a call has come to: nothing yet, an error code alone, or the whole output. -/
inductive CallResult (α : Type)
  | running
  | failed (code : ErrCode)
  | finished (output : List α)
deriving DecidableEq, Repr

/-- The result of the encode call between two states: the bytes appended since. -/
def encodeResult (before after : State) : CallResult Byte :=
  match after.enc.phase with
  | .done => .finished ((after.bout.drop before.bout.length).map ByteOut.byte)
  | .error => .failed after.enc.err
  | _ => .running

/-- The result of the decode call between two states: the pixels appended since, or the error alone. -/
def decodeResult (before after : State) : CallResult Pixel :=
  match after.dec.phase with
  | .done => .finished ((after.pout.drop before.pout.length).map PixelOut.pixel)
  | .error => .failed after.dec.err
  | _ => .running

/-! ## Lockstep of the two contexts (spec/43_decoder.md R203) -/

/-- DEC stands where ENC stands, but for the run ENC has not yet put out. -/
abbrev inLockstep (e : Enc) (d : Dec) : Prop :=
  d.phase = .chunks ∧ d.prev = e.prev ∧ d.cache = e.cache ∧ d.total = e.total
    ∧ d.count.toNat + e.run.toNat = e.pos.toNat

/-- The pixels ENC has counted into its run and not yet put out (spec/10_state.md R24). -/
def pendingPixels (e : Enc) : List Pixel := List.replicate e.run.toNat e.prev

/-- The pixels on POUT. -/
def pixelsOut (s : State) : List Pixel := s.pout.map PixelOut.pixel

/-- The units ENC emits for a sequence of working pixels (spec/42_encoder.md R151, pixel by pixel). -/
def unitsOfPixels : Enc → List Pixel → List Instr
  | _, [] => []
  | e, p :: ps => encPixelUnits e p ++ unitsOfPixels (encPixelState e p) ps

/-! ## Units by kind -/

/-- The chunk kind of a unit, none for the framing units. -/
def unitKind : Instr → Option ChunkKind
  | .header _ _ _ _ => none
  | .index _ => some .index
  | .diff _ _ _ => some .diff
  | .luma _ _ _ => some .luma
  | .run _ => some .run
  | .rgb _ _ _ => some .rgb
  | .rgba _ _ _ _ => some .rgba
  | .trailer => none

/-- How many pixels a unit stands for (spec/10_state.md R26). -/
def unitPixels : Instr → Nat
  | .header _ _ _ _ => 0
  | .index _ => 1
  | .diff _ _ _ => 1
  | .luma _ _ _ => 1
  | .run n => n
  | .rgb _ _ _ => 1
  | .rgba _ _ _ _ => 1
  | .trailer => 0

/-- The unit writes DEC's cache: every chunk but RUN and INDEX (spec/43_decoder.md R198). -/
def writesCache : Instr → Bool
  | .header _ _ _ _ => false
  | .index _ => false
  | .diff _ _ _ => true
  | .luma _ _ _ => true
  | .run _ => false
  | .rgb _ _ _ => true
  | .rgba _ _ _ _ => true
  | .trailer => false

/-- The step that takes a unit at a position is enabled (spec/10_state.md R30). -/
def enabledAt (pos : Position) (d : Dec) : Bool :=
  match pos with
  | .header => decHeaderEnabled d
  | .chunk => decChunkEnabled d
  | .trailer => decTrailerEnabled d

/-! ## The encoder's step, transcribed (spec/42_encoder.md R151) -/

/-- `emit(0xC0 | (run - 1))`. -/
def runByte (run : BitVec 6) : Byte := 0xC0 ||| (run - 1).setWidth 8

/-- `emit(0x40 | (dr+2) << 4 | (dg+2) << 2 | (db+2))`. -/
def diffByte (dr dg db : Int) : Byte :=
  0x40 ||| (BitVec.ofInt 8 (dr + 2) <<< 4) ||| (BitVec.ofInt 8 (dg + 2) <<< 2) ||| BitVec.ofInt 8 (db + 2)

/-- `emit(0x80 | (dg+32), ((dr-dg)+8) << 4 | ((db-dg)+8))`. -/
def lumaBytes (dr dg db : Int) : List Byte :=
  [0x80 ||| BitVec.ofInt 8 (dg + 32),
    (BitVec.ofInt 8 (dr - dg + 8) <<< 4) ||| BitVec.ofInt 8 (db - dg + 8)]

/-- Steps 5 and 6 of R151: the bytes of a pixel that missed the cache. -/
def missBytes (prev p : Pixel) : List Byte :=
  if p.a = prev.a then
    let dr := delta8 p.r prev.r
    let dg := delta8 p.g prev.g
    let db := delta8 p.b prev.b
    if fitsDiff dr dg db then [diffByte dr dg db]
    else if fitsLuma dr dg db then lumaBytes dr dg db
    else [0xFE, p.r, p.g, p.b]
  else [0xFF, p.r, p.g, p.b, p.a]

/-- The pseudocode of R151: ENC after the step on the working pixel `p`, and the bytes it emits. -/
def pixelStep (e : Enc) (p : Pixel) (last : Bool) : Enc × List Byte :=
  if p = e.prev then
    let run := e.run + 1
    if run = 62 ∨ last = true then ({ e with run := 0, pos := e.pos + 1 }, [runByte run])
    else ({ e with run := run, pos := e.pos + 1 }, [])
  else
    let flushed := if e.run ≠ 0 then [runByte e.run] else []
    let idx := indexOf p
    if readSlot e.cache idx = p then
      ({ e with run := 0, prev := p, pos := e.pos + 1 }, flushed ++ [(0b00#2 ++ idx : BitVec 8)])
    else
      ({ e with run := 0, cache := writeSlot e.cache idx p, prev := p, pos := e.pos + 1 },
        flushed ++ missBytes e.prev p)

end Sys2Proof.Machine
end

