-- ==== Sys2Proof/Certificates/Slice0/Obligations.lean ====
section
/-! DEFINITION. The statements for the provers, each about every state or every operand. Where a statement says what a
step does, it names the state by its agenda: the move at the head of the agenda is the one made (log 2). -/

open Sys2Proof Sys2Proof.Machine

/-! ## Encoding -/

/-- R81 to R89: the decoder reads back every well-formed unit the encoder writes, whatever bytes follow it. -/
def Obligations.DecodeInvertsEncode : Prop :=
  ∀ (i : Instr) (rest : List Byte), i.WellFormed → decode i.position (encode i ++ rest) = .ok (i, rest)

/-- R83 to R90: a header or a chunk that the decoder reads is written back as the very bytes it came from, and a chunk
is always well-formed. -/
def Obligations.EncodeInvertsDecode : Prop :=
  ∀ (pos : Position) (bs rest : List Byte) (i : Instr), pos ≠ .trailer → decode pos bs = .ok (i, rest) →
    encode i ++ rest = bs ∧ (pos = .chunk → i.WellFormed)

/-- R90: the dispatch by ranges and by match and mask, and how many byte values each kind has. -/
def Obligations.TagDispatchIsTotal : Prop :=
  (∀ t : Byte,
      tagKind t =
        if t.toNat = 0xFF then .rgba
        else if t.toNat = 0xFE then .rgb
        else if 0xC0 ≤ t.toNat then .run
        else if t.toNat < 0x40 then .index
        else if t.toNat < 0x80 then .diff
        else .luma)
    ∧ (∀ t : Byte,
        (tagKind t = .rgba ↔ t &&& 0xFF = 0xFF) ∧ (tagKind t = .rgb ↔ t &&& 0xFF = 0xFE)
          ∧ (tagKind t = .run ↔ t &&& 0xC0 = 0xC0 ∧ t ≠ 0xFE ∧ t ≠ 0xFF)
          ∧ (tagKind t = .index ↔ t &&& 0xC0 = 0x00) ∧ (tagKind t = .diff ↔ t &&& 0xC0 = 0x40)
          ∧ (tagKind t = .luma ↔ t &&& 0xC0 = 0x80))
    ∧ ∀ kind : ChunkKind,
        ((List.range 256).filter fun n => decide (tagKind (BitVec.ofNat 8 n) = kind)).length =
          match kind with
          | .index => 64
          | .diff => 64
          | .luma => 64
          | .run => 62
          | .rgb => 1
          | .rgba => 1

/-- R91: the tag byte alone fixes a chunk's kind and length, and the bytes after it are never read as tags. -/
def Obligations.ChunkLengthIsTheTags : Prop :=
  (chunkLength .index = 1 ∧ chunkLength .diff = 1 ∧ chunkLength .run = 1 ∧ chunkLength .luma = 2
      ∧ chunkLength .rgb = 4 ∧ chunkLength .rgba = 5)
    ∧ ∀ (t : Byte) (bs : List Byte),
        (bs.length + 1 < chunkLength (tagKind t) → decode .chunk (t :: bs) = .error .short)
          ∧ (chunkLength (tagKind t) ≤ bs.length + 1 →
              ∃ i, decode .chunk (t :: bs) = .ok (i, bs.drop (chunkLength (tagKind t) - 1))
                ∧ unitKind i = some (tagKind t))

/-- Words written out from R81 to R88 decode to the units they stand for. -/
def Obligations.SpecWordsDecode : Prop :=
  decode .header [0x71, 0x6F, 0x69, 0x66, 0x01, 0x02, 0x03, 0x04, 0xA0, 0xB0, 0xC0, 0xD0, 0x04, 0xEE] =
      .ok (.header 0x01020304 0xA0B0C0D0 4 0xEE, [])
    ∧ decode .chunk [0x3F] = .ok (.index 63, [])
    ∧ decode .chunk [0b01011010] = .ok (.diff (-1) 0 0, [])
    ∧ decode .chunk [0b10100011, 0b10100110] = .ok (.luma 3 2 (-2), [])
    ∧ decode .chunk [0b11111101] = .ok (.run 62, [])
    ∧ decode .chunk [0xFE, 0xFF, 0xFE, 0xC0] = .ok (.rgb 0xFF 0xFE 0xC0, [])
    ∧ decode .chunk [0xFF, 1, 2, 3, 4] = .ok (.rgba 1 2 3 4, [])
    ∧ decode .trailer [0, 0, 0, 0, 0, 0, 0, 1] = .ok (.trailer, [])

/-! ## Reset and the start of a call -/

/-- R34: every register after hardware reset, from whatever state. That the streams keep what they hold and `bin_end` its
level is the model's choice (log 1, log 4). -/
def Obligations.ResetGivesEveryRegisterItsValue : Prop :=
  resetValues State.reset
    ∧ ∀ (s : State) (rest : List Move), s.agenda = .reset :: rest →
        ∃ t, step s = .next t ∧ resetValues t
          ∧ t.pin = s.pin ∧ t.bin = s.bin ∧ t.binEnd = s.binEnd ∧ t.bout = s.bout ∧ t.pout = s.pout ∧ t.agenda = rest

/-- R110: `EncStart` whole. Ignored while busy; otherwise the operands are latched, the running state is call-initial,
and the header is emitted or UnsupportedChannelError raised. -/
def Obligations.EncStartFollowsR110 : Prop :=
  ∀ (s : State) (w h : Dim) (c sp : Byte) (rest : List Move), s.agenda = .encStart w h c sp :: rest →
    let latched : Enc :=
      { width := w, height := h, channels := c, colorspace := sp
        total := BitVec.ofNat 64 (w.toNat * h.toNat), pos := 0, run := 0
        prev := ⟨0, 0, 0, 255⟩, cache := Vector.replicate 64 ⟨0, 0, 0, 0⟩, phase := .pixels, err := .none }
    step s = .next
      (if s.enc.phase = .header ∨ s.enc.phase = .pixels ∨ s.enc.phase = .trailer then { s with agenda := rest }
       else if c = 3 ∨ c = 4 then
        { s with
          agenda := rest
          enc := latched
          bout := s.bout ++
            [0x71, 0x6F, 0x69, 0x66,
              w.extractLsb' 24 8, w.extractLsb' 16 8, w.extractLsb' 8 8, w.extractLsb' 0 8,
              h.extractLsb' 24 8, h.extractLsb' 16 8, h.extractLsb' 8 8, h.extractLsb' 0 8, c, sp].map
              fun b => ⟨b, false⟩ }
       else { s with agenda := rest, enc := { latched with phase := .error, err := .unsupportedChannel } })

/-- R111: `DecStart` whole. Ignored while busy; otherwise header registers cleared, running state call-initial. What
the source's level `bin_end` is after an accepted start is another statement (`BinEndHoldsUntilDecStart`). -/
def Obligations.DecStartFollowsR111 : Prop :=
  ∀ (s : State) (rest : List Move), s.agenda = .decStart :: rest → ∃ level : Bool,
    step s = .next
      (if s.dec.phase = .header ∨ s.dec.phase = .chunks ∨ s.dec.phase = .trailer then { s with agenda := rest }
       else
        { s with
          agenda := rest
          binEnd := level
          dec :=
            { width := 0, height := 0, channels := 0, colorspace := 0, hdrValid := false, total := 0, count := 0
              prev := ⟨0, 0, 0, 255⟩, cache := Vector.replicate 64 ⟨0, 0, 0, 0⟩, phase := .header, err := .none } })

/-- R52 as the model reads it (log 4, the model's choice): the level `bin_end` rises when the byte source raises it, falls
with an accepted `DecStart`, and is otherwise held. -/
def Obligations.BinEndHoldsUntilDecStart : Prop :=
  ∀ s t : State, step s = .next t →
    (s.binEnd = false → (t.binEnd = true ↔ ∃ rest, s.agenda = .endBytes :: rest))
      ∧ (s.binEnd = true → (t.binEnd = false ↔ ∃ rest, s.agenda = .decStart :: rest ∧ decBusy s.dec = false))

/-- R21, R261: an accepted start leaves a context that depends on its operands alone, so that no call can observe an
earlier one. -/
def Obligations.StartForgetsEarlierCalls : Prop :=
  (∀ (s u s' u' : State) (w h : Dim) (c sp : Byte) (rest rest' : List Move),
      s.agenda = .encStart w h c sp :: rest → u.agenda = .encStart w h c sp :: rest' →
      encBusy s.enc = false → encBusy u.enc = false → step s = .next s' → step u = .next u' → s'.enc = u'.enc)
    ∧ ∀ (s u s' u' : State) (rest rest' : List Move),
        s.agenda = .decStart :: rest → u.agenda = .decStart :: rest' →
        decBusy s.dec = false → decBusy u.dec = false → step s = .next s' → step u = .next u' → s'.dec = u'.dec

/-! ## The framing units -/

/-- R112, R236: `DecHeader` whole, the errors in their order; where the bytes have not all come and the input has not
ended, DEC waits (R266). -/
def Obligations.DecHeaderFollowsR112 : Prop :=
  ∀ (s : State) (rest : List Move), s.agenda = .turn .dec :: rest → s.dec.phase = .header →
    let here : State := { s with agenda := rest }
    let b : Nat → Byte := fun k => s.bin.getD k 0
    let w : Dim := b 4 ++ b 5 ++ b 6 ++ b 7
    let h : Dim := b 8 ++ b 9 ++ b 10 ++ b 11
    let failed : Nat → ErrCode → State := fun n code =>
      { here with bin := s.bin.drop n, dec := { s.dec with err := code, phase := .error } }
    let short : State := if s.binEnd = true then failed s.bin.length .truncated else here
    step s = .next
      (if s.bin.length < 4 then short
       else if s.bin.take 4 ≠ [0x71, 0x6F, 0x69, 0x66] then failed 4 .format
       else if s.bin.length < 14 then short
       else if b 12 ≠ 3 ∧ b 12 ≠ 4 then failed 14 .unsupportedChannel
       else
        { here with
          bin := s.bin.drop 14
          dec :=
            { s.dec with
              width := w, height := h, channels := b 12, colorspace := b 13
              total := BitVec.ofNat 64 (w.toNat * h.toNat), hdrValid := true, phase := .chunks } })

/-- R112: the meaning of HEADER, its bytes read: it always completes where it is enabled, by latching the header
registers or by raising UnsupportedChannelError. -/
def Obligations.HeaderCompletes : Prop :=
  ∀ (s : State) (w h : Dim) (c sp : Byte), s.dec.phase = .header →
    exec (.header w h c sp) s = .next
      { s with
        dec :=
          if c = 3 ∨ c = 4 then
            { s.dec with
              width := w, height := h, channels := c, colorspace := sp
              total := BitVec.ofNat 64 (w.toNat * h.toNat), hdrValid := true, phase := .chunks }
          else { s.dec with err := .unsupportedChannel, phase := .error } }

/-- R114: `DecTrailer` whole. Eight bytes of any value, or TruncatedInputError once the input has ended; else DEC
waits. -/
def Obligations.DecTrailerFollowsR114 : Prop :=
  ∀ (s : State) (rest : List Move),
    s.agenda = .turn .dec :: rest → s.dec.phase = .chunks → s.dec.count = s.dec.total →
    let here : State := { s with agenda := rest }
    step s = .next
      (if 8 ≤ s.bin.length then { here with bin := s.bin.drop 8, dec := { s.dec with phase := .done } }
       else if s.binEnd = true then
        { here with bin := [], dec := { s.dec with err := .truncated, phase := .error } }
       else here)

/-- R114: the meaning of TRAILER, its bytes read. -/
def Obligations.TrailerCompletes : Prop :=
  ∀ s : State, s.dec.phase = .chunks → s.dec.count = s.dec.total →
    exec .trailer s = .next { s with dec := { s.dec with phase := .done } }

/-- R113: `EncFinish` emits the trailer, `bout_last` with its final byte (R52), and is done; between the steps of a call
no run is pending then. -/
def Obligations.EncFinishEmitsTrailer : Prop :=
  ∀ (s : State) (rest : List Move),
    s.agenda = .turn .enc :: rest → s.enc.phase = .pixels → s.enc.pos = s.enc.total →
    (step s = .next
      { s with
        agenda := rest
        enc := { s.enc with phase := .done }
        bout := s.bout ++ [⟨0, false⟩, ⟨0, false⟩, ⟨0, false⟩, ⟨0, false⟩, ⟨0, false⟩, ⟨0, false⟩, ⟨0, false⟩, ⟨1, true⟩] })
      ∧ (callInv s → s.enc.run = 0)

/-- R115: an image with a zero dimension is a header followed at once by a trailer, in both directions. -/
def Obligations.ZeroAreaImageHasNoChunk : Prop :=
  (∀ (s : State) (w h : Dim) (c sp : Byte) (rest : List Move),
      w = 0 ∨ h = 0 → c = 3 ∨ c = 4 → encBusy s.enc = false →
      s.agenda = .encStart w h c sp :: .turn .enc :: rest →
      ∃ t, Host.Core.run core 2 s = .next t ∧ t.enc.phase = .done ∧ t.pin = s.pin
        ∧ t.bout.map ByteOut.byte =
          s.bout.map ByteOut.byte ++ encode (.header w h c sp) ++ [0, 0, 0, 0, 0, 0, 0, 1])
    ∧ ∀ (s : State) (w h : Dim) (c sp : Byte) (tail more : List Byte) (rest : List Move),
        w = 0 ∨ h = 0 → c = 3 ∨ c = 4 → s.dec.phase = .header → s.dec.count = 0 → tail.length = 8 →
        s.bin = encode (.header w h c sp) ++ tail ++ more → s.agenda = .turn .dec :: .turn .dec :: rest →
        ∃ t, Host.Core.run core 2 s = .next t ∧ t.dec.phase = .done ∧ t.dec.err = s.dec.err ∧ t.pout = s.pout
          ∧ t.bin = more

/-! ## The chunks -/

/-- R192, R198: RGBA. -/
def Obligations.RgbaGivesFourRawChannels : Prop :=
  ∀ (s : State) (r g b a : Byte), s.dec.phase = .chunks → s.dec.count < s.dec.total →
    let p : Pixel := ⟨r, g, b, a⟩
    exec (.rgba r g b a) s = .next
      { s with
        pout := s.pout ++ [⟨p, s.dec.count.toNat + 1 == s.dec.total.toNat⟩]
        dec :=
          { s.dec with
            cache := writeSlot s.dec.cache (indexOf p) p, prev := p, count := s.dec.count + 1 } }

/-- R193, R198: RGB takes its alpha from `prev`. -/
def Obligations.RgbKeepsAlpha : Prop :=
  ∀ (s : State) (r g b : Byte), s.dec.phase = .chunks → s.dec.count < s.dec.total →
    let p : Pixel := ⟨r, g, b, s.dec.prev.a⟩
    exec (.rgb r g b) s = .next
      { s with
        pout := s.pout ++ [⟨p, s.dec.count.toNat + 1 == s.dec.total.toNat⟩]
        dec :=
          { s.dec with
            cache := writeSlot s.dec.cache (indexOf p) p, prev := p, count := s.dec.count + 1 } }

/-- R194: RUN repeats `prev` and touches neither cache nor `prev`; the last copy carries `pout_last` exactly when the
run fills the image. -/
def Obligations.RunRepeatsPrevious : Prop :=
  ∀ (s : State) (n : Nat), s.dec.phase = .chunks → s.dec.count < s.dec.total → 1 ≤ n → n ≤ 62 →
    s.dec.count.toNat + n ≤ s.dec.total.toNat →
    exec (.run n) s = .next
      { s with
        pout := s.pout ++ List.replicate (n - 1) ⟨s.dec.prev, false⟩
          ++ [⟨s.dec.prev, s.dec.count.toNat + n == s.dec.total.toNat⟩]
        dec := { s.dec with count := s.dec.count + BitVec.ofNat 64 n } }

/-- R201: a RUN past the pixel count raises RunOverrunError and does nothing else. -/
def Obligations.RunPastTheCountIsAnError : Prop :=
  ∀ (s : State) (n : Nat), s.dec.phase = .chunks → s.dec.count < s.dec.total → 1 ≤ n → n ≤ 62 →
    s.dec.total.toNat < s.dec.count.toNat + n →
    exec (.run n) s = .next { s with dec := { s.dec with err := .runOverrun, phase := .error } }

/-- R195: INDEX reads the slot, sets `prev`, and stores nothing. -/
def Obligations.IndexReadsAndDoesNotStore : Prop :=
  ∀ (s : State) (idx : Slot), s.dec.phase = .chunks → s.dec.count < s.dec.total →
    let p := readSlot s.dec.cache idx
    exec (.index idx) s = .next
      { s with
        pout := s.pout ++ [⟨p, s.dec.count.toNat + 1 == s.dec.total.toNat⟩]
        dec := { s.dec with prev := p, count := s.dec.count + 1 } }

/-- R196, R198: DIFF adds each delta modulo 256, alpha unchanged. -/
def Obligations.DiffAddsWrapping : Prop :=
  ∀ (s : State) (dr dg db : Int), s.dec.phase = .chunks → s.dec.count < s.dec.total →
    ∃ p : Pixel,
      (p.r.toNat : Int) = (s.dec.prev.r.toNat + dr) % 256 ∧ (p.g.toNat : Int) = (s.dec.prev.g.toNat + dg) % 256
        ∧ (p.b.toNat : Int) = (s.dec.prev.b.toNat + db) % 256 ∧ p.a = s.dec.prev.a
        ∧ exec (.diff dr dg db) s = .next
          { s with
            pout := s.pout ++ [⟨p, s.dec.count.toNat + 1 == s.dec.total.toNat⟩]
            dec :=
              { s.dec with
                cache := writeSlot s.dec.cache (indexOf p) p, prev := p, count := s.dec.count + 1 } }

/-- R197, R198: LUMA adds the green delta to all three channels and the differences to red and blue, modulo 256. -/
def Obligations.LumaAddsRelativeToGreen : Prop :=
  ∀ (s : State) (dg drg dbg : Int), s.dec.phase = .chunks → s.dec.count < s.dec.total →
    ∃ p : Pixel,
      (p.r.toNat : Int) = (s.dec.prev.r.toNat + dg + drg) % 256 ∧ (p.g.toNat : Int) = (s.dec.prev.g.toNat + dg) % 256
        ∧ (p.b.toNat : Int) = (s.dec.prev.b.toNat + dg + dbg) % 256 ∧ p.a = s.dec.prev.a
        ∧ exec (.luma dg drg dbg) s = .next
          { s with
            pout := s.pout ++ [⟨p, s.dec.count.toNat + 1 == s.dec.total.toNat⟩]
            dec :=
              { s.dec with
                cache := writeSlot s.dec.cache (indexOf p) p, prev := p, count := s.dec.count + 1 } }

/-- R30: a unit whose step the phase and the counts do not enable has no transition: the meaning is refused by name. -/
def Obligations.DisabledUnitIsRefused : Prop :=
  ∀ (i : Instr) (s : State), enabledAt i.position s.dec = false → exec i s = .refused .stepNotEnabled

/-- The frame of every unit (R192 to R198, R112, R114): ENC, the input streams, the agenda and BOUT untouched; a chunk
leaves the header registers, and the cache but for the slot of the pixel it stores; a framing unit leaves the running
state and POUT. -/
def Obligations.UnitsLeaveTheRestAlone : Prop :=
  ∀ (i : Instr) (s t : State), exec i s = .next t →
    (t.enc = s.enc ∧ t.pin = s.pin ∧ t.bin = s.bin ∧ t.binEnd = s.binEnd ∧ t.bout = s.bout ∧ t.agenda = s.agenda
        ∧ t.turn = s.turn)
      ∧ (i.position ≠ .header →
          t.dec.width = s.dec.width ∧ t.dec.height = s.dec.height ∧ t.dec.channels = s.dec.channels
            ∧ t.dec.colorspace = s.dec.colorspace ∧ t.dec.hdrValid = s.dec.hdrValid ∧ t.dec.total = s.dec.total)
      ∧ (i.position ≠ .chunk →
          t.dec.prev = s.dec.prev ∧ t.dec.cache = s.dec.cache ∧ t.dec.count = s.dec.count ∧ t.pout = s.pout)
      ∧ (writesCache i = false → t.dec.cache = s.dec.cache)
      ∧ (writesCache i = true →
          ∀ j : Slot, j ≠ indexOf t.dec.prev → readSlot t.dec.cache j = readSlot s.dec.cache j)
      ∧ (unitKind i = some .run → t.dec.prev = s.dec.prev)
      ∧ (unitKind i ≠ some .run → i.position = .chunk → t.dec.phase = s.dec.phase ∧ t.dec.err = s.dec.err)

/-- R26, R199: a chunk that raises no error adds to `count` the pixels it stands for, delivers exactly that many, and
never takes `count` past `total`. -/
def Obligations.CountFollowsThePixels : Prop :=
  ∀ (i : Instr) (s t : State), i.position = .chunk → exec i s = .next t → t.dec.phase ≠ .error →
    t.dec.count.toNat = s.dec.count.toNat + unitPixels i ∧ t.dec.count ≤ t.dec.total
      ∧ t.pout.length = s.pout.length + unitPixels i

/-- R200: an input that ends where a tag byte is needed, or inside a chunk, is a TruncatedInputError: what was left is
consumed, no pixel is emitted, and `prev`, `cache` and `count` keep their values. -/
def Obligations.TruncatedChunkIsAnError : Prop :=
  ∀ (s : State) (rest : List Move),
    s.agenda = .turn .dec :: rest → s.dec.phase = .chunks → s.dec.count < s.dec.total → s.binEnd = true →
    (s.bin = [] ∨ ∃ t bs, s.bin = t :: bs ∧ bs.length + 1 < chunkLength (tagKind t)) →
    step s = .next
      { s with agenda := rest, bin := [], dec := { s.dec with err := .truncated, phase := .error } }

/-! ## Waiting, errors and phases -/

/-- R266: ENC without a presented Pixel, and DEC without the bytes of its unit while the input has not ended, wait: the
turn changes nothing. -/
def Obligations.WaitingChangesNothing : Prop :=
  (∀ (s : State) (rest : List Move),
      s.agenda = .turn .enc :: rest → s.enc.phase = .pixels → s.enc.pos < s.enc.total → s.pin = [] →
      step s = .next { s with agenda := rest })
    ∧ ∀ (s : State) (rest : List Move) (pos : Position),
        s.agenda = .turn .dec :: rest → enabledAt pos s.dec = true → s.binEnd = false →
        decode pos s.bin = .error .short → step s = .next { s with agenda := rest }

/-- R262, R51: presenting units lengthens the input and changes nothing else: bytes unless `bin_end` has ended the call in
progress (R262's liberty to present bytes past a call's end; U16, log 4), Pixels always. -/
def Obligations.PresentingLengthensTheInput : Prop :=
  (∀ (s : State) (bs : List Byte) (rest : List Move), s.agenda = .bytes bs :: rest →
      (s.binEnd = false ∨ s.dec.phase = .idle ∨ s.dec.phase = .done ∨ s.dec.phase = .error) →
      step s = .next { s with agenda := rest, bin := s.bin ++ bs })
    ∧ ∀ (s : State) (ps : List Pixel) (rest : List Move), s.agenda = .pixels ps :: rest →
        step s = .next { s with agenda := rest, pin := s.pin ++ ps }

/-- R234, R244: in IDLE, DONE and ERROR a context performs no step: it takes nothing and puts nothing out. -/
def Obligations.ContextAtRestDoesNothing : Prop :=
  ∀ (s : State) (c : Context) (rest : List Move), s.agenda = .turn c :: rest →
    (match c with
      | .enc => s.enc.phase = .idle ∨ s.enc.phase = .done ∨ s.enc.phase = .error
      | .dec => s.dec.phase = .idle ∨ s.dec.phase = .done ∨ s.dec.phase = .error) →
    step s = .next { s with agenda := rest }

/-- R234: whatever step raises an error in DEC writes the code and the phase and nothing else of DEC, and delivers
nothing; the one error of ENC emits nothing. -/
def Obligations.ErrorsArePrecise : Prop :=
  ∀ s t : State, step s = .next t →
    (s.dec.phase ≠ .error → t.dec.phase = .error →
        t.dec = { s.dec with err := t.dec.err, phase := .error } ∧ t.dec.err ≠ .none ∧ t.pout = s.pout)
      ∧ (s.enc.phase ≠ .error → t.enc.phase = .error →
          t.enc.err = .unsupportedChannel ∧ t.bout = s.bout ∧ t.pin = s.pin)

/-- R238: a context leaves ERROR only by its start step or by hardware reset. -/
def Obligations.OnlyStartOrResetLeavesError : Prop :=
  ∀ s t : State, step s = .next t →
    (s.dec.phase = .error → t.dec.phase ≠ .error →
        ∃ rest, s.agenda = .reset :: rest ∨ s.agenda = .decStart :: rest)
      ∧ (s.enc.phase = .error → t.enc.phase ≠ .error →
          ∃ rest, s.agenda = .reset :: rest ∨ ∃ w h c sp, s.agenda = .encStart w h c sp :: rest)

/-- R30: every change of phase is one of the table's, from the phase and counts and by the step the table names; ENC's and
DEC's own steps are their turns (`takesTurn`; logs 2 and 3). -/
def Obligations.PhasesChangeOnlyAsListed : Prop :=
  ∀ s t : State, step s = .next t →
    (t.enc.phase = s.enc.phase
        ∨ (∃ rest, s.agenda = .reset :: rest ∧ t.enc.phase = .idle)
        ∨ (∃ w h c sp rest, s.agenda = .encStart w h c sp :: rest
            ∧ (s.enc.phase = .idle ∨ s.enc.phase = .done ∨ s.enc.phase = .error)
            ∧ t.enc.phase = if c = 3 ∨ c = 4 then .pixels else .error)
        ∨ (takesTurn .enc s ∧ s.enc.phase = .pixels ∧ s.enc.pos = s.enc.total ∧ t.enc.phase = .done))
      ∧ (t.dec.phase = s.dec.phase
          ∨ (∃ rest, s.agenda = .reset :: rest ∧ t.dec.phase = .idle)
          ∨ (∃ rest, s.agenda = .decStart :: rest
              ∧ (s.dec.phase = .idle ∨ s.dec.phase = .done ∨ s.dec.phase = .error) ∧ t.dec.phase = .header)
          ∨ (takesTurn .dec s ∧ s.dec.phase = .header ∧ (t.dec.phase = .chunks ∨ t.dec.phase = .error))
          ∨ (takesTurn .dec s ∧ s.dec.phase = .chunks ∧ s.dec.count < s.dec.total ∧ t.dec.phase = .error)
          ∨ (takesTurn .dec s ∧ s.dec.phase = .chunks ∧ s.dec.count = s.dec.total ∧ (t.dec.phase = .done ∨ t.dec.phase = .error)))

/-- R230 to R236, R242: which step raises which error, and from what cause; nothing else raises one, and only a start
step or reset clears one. The premise of each half is that the step writes a new code or enters ERROR. DEC's errors are
raised by its own turns (`takesTurn`; logs 2 and 3). -/
def Obligations.ErrorsHaveTheListedCauses : Prop :=
  ∀ s t : State, step s = .next t →
    (t.enc.err ≠ s.enc.err ∨ (s.enc.phase ≠ .error ∧ t.enc.phase = .error) →
        match t.enc.err with
        | .none =>
          ∃ rest, s.agenda = .reset :: rest
            ∨ ∃ w h c sp, s.agenda = .encStart w h c sp :: rest ∧ encBusy s.enc = false ∧ (c = 3 ∨ c = 4)
        | .unsupportedChannel =>
          ∃ w h c sp rest, s.agenda = .encStart w h c sp :: rest ∧ encBusy s.enc = false ∧ c ≠ 3 ∧ c ≠ 4
        | .format => False
        | .truncated => False
        | .runOverrun => False)
      ∧ (t.dec.err ≠ s.dec.err ∨ (s.dec.phase ≠ .error ∧ t.dec.phase = .error) →
          match t.dec.err with
          | .none =>
            ∃ rest, s.agenda = .reset :: rest ∨ (s.agenda = .decStart :: rest ∧ decBusy s.dec = false)
          | .format =>
            takesTurn .dec s ∧ s.dec.phase = .header ∧ 4 ≤ s.bin.length
              ∧ s.bin.take 4 ≠ [0x71, 0x6F, 0x69, 0x66]
          | .truncated =>
            takesTurn .dec s ∧ s.binEnd = true ∧ t.bin = []
              ∧ ((s.dec.phase = .header ∧ s.bin.length < 14
                    ∧ (s.bin.length < 4 ∨ s.bin.take 4 = [0x71, 0x6F, 0x69, 0x66]))
                ∨ (s.dec.phase = .chunks ∧ s.dec.count < s.dec.total
                    ∧ (s.bin = [] ∨ ∃ b bs, s.bin = b :: bs ∧ bs.length + 1 < chunkLength (tagKind b)))
                ∨ (s.dec.phase = .chunks ∧ s.dec.count = s.dec.total ∧ s.bin.length < 8))
          | .unsupportedChannel =>
            takesTurn .dec s ∧ s.dec.phase = .header ∧ 14 ≤ s.bin.length
              ∧ s.bin.take 4 = [0x71, 0x6F, 0x69, 0x66] ∧ s.bin.getD 12 0 ≠ 3 ∧ s.bin.getD 12 0 ≠ 4
          | .runOverrun =>
            takesTurn .dec s ∧ s.dec.phase = .chunks ∧ s.dec.count < s.dec.total
              ∧ ∃ b bs, s.bin = b :: bs ∧ tagKind b = .run
                ∧ s.dec.total.toNat < s.dec.count.toNat + (b.toNat % 64 + 1))

/-- R31, R32, R230, R239: everything the host reads: the status levels, the error codes as numbers, and the readable
registers. -/
def Obligations.StatusFollowsThePhase : Prop :=
  let code : ErrCode → Nat := fun err =>
    match err with
    | .none => 0
    | .format => 1
    | .truncated => 2
    | .unsupportedChannel => 3
    | .runOverrun => 4
  ∀ s : State,
    ((hostRead s .encBusy).toNat =
          (if s.enc.phase ≠ .idle ∧ s.enc.phase ≠ .done ∧ s.enc.phase ≠ .error then 1 else 0)
        ∧ (hostRead s .encDone).toNat = (if s.enc.phase = .done then 1 else 0)
        ∧ (hostRead s .encError).toNat = (if s.enc.phase = .error then 1 else 0)
        ∧ (hostRead s .decBusy).toNat =
          (if s.dec.phase ≠ .idle ∧ s.dec.phase ≠ .done ∧ s.dec.phase ≠ .error then 1 else 0)
        ∧ (hostRead s .decDone).toNat = (if s.dec.phase = .done then 1 else 0)
        ∧ (hostRead s .decError).toNat = (if s.dec.phase = .error then 1 else 0)
        ∧ (hostRead s .decHdrValid).toNat = (if s.dec.hdrValid = true then 1 else 0))
      ∧ ((hostRead s .encErr).toNat = code s.enc.err ∧ (hostRead s .decErr).toNat = code s.dec.err)
      ∧ ((hostRead s .encWidth).toNat = s.enc.width.toNat ∧ (hostRead s .encHeight).toNat = s.enc.height.toNat
        ∧ (hostRead s .encChannels).toNat = s.enc.channels.toNat
        ∧ (hostRead s .encColorspace).toNat = s.enc.colorspace.toNat ∧ (hostRead s .encPos).toNat = s.enc.pos.toNat)
      ∧ (hostRead s .decWidth).toNat = s.dec.width.toNat ∧ (hostRead s .decHeight).toNat = s.dec.height.toNat
        ∧ (hostRead s .decChannels).toNat = s.dec.channels.toNat
        ∧ (hostRead s .decColorspace).toNat = s.dec.colorspace.toNat ∧ (hostRead s .decCount).toNat = s.dec.count.toNat

/-! ## The encoder -/

/-- R150, R151: `EncPixel` whole, against the pseudocode of R151 transcribed (`pixelStep`). The premise on `run` is
R37 (a). -/
def Obligations.EncPixelFollowsR151 : Prop :=
  ∀ (s : State) (q : Pixel) (more : List Pixel) (rest : List Move),
    s.agenda = .turn .enc :: rest → s.enc.phase = .pixels → s.enc.pos < s.enc.total → s.enc.run.toNat ≤ 61 →
    s.pin = q :: more →
    let p : Pixel := if s.enc.channels = 3 then { q with a := 255 } else q
    let done := pixelStep s.enc p (s.enc.pos == s.enc.total - 1)
    step s = .next
      { s with
        agenda := rest, pin := more, enc := done.1, bout := s.bout ++ done.2.map fun b => ⟨b, false⟩ }

/-- R163: at most two chunks and six bytes a pixel, and the first of two chunks is a RUN. -/
def Obligations.EncoderEmitsAtMostSixBytes : Prop :=
  ∀ (e : Enc) (p : Pixel),
    (encPixelUnits e p).length ≤ 2 ∧ ((encPixelUnits e p).flatMap encode).length ≤ 6
      ∧ ∀ i j : Instr, encPixelUnits e p = [i, j] → unitKind i = some .run

/-- R86, R89, R153, R164: every unit the encoder emits is a well-formed chunk (so no RUN byte is 0xFE or 0xFF), while
`run` is in its range. -/
def Obligations.EncoderUnitsAreWellFormed : Prop :=
  ∀ (e : Enc) (p : Pixel), e.run.toNat ≤ 61 →
    ∀ i ∈ encPixelUnits e p, i.WellFormed ∧ i.position = .chunk

/-- R93 (b), (c), (d) and (f): what the encoder never emits; (a) is in `EncoderUnitsAreWellFormed`, (e) in
`RunsFollowOnlyFullRuns`. -/
def Obligations.EncoderIsCanonical : Prop :=
  ∀ (e : Enc) (q : Pixel), opaqueWhenThree e →
    let p := workingPixel e.channels q
    ∀ i ∈ encPixelUnits e p,
      i ≠ .diff 0 0 0
        ∧ (∀ idx, i = .index idx → readSlot e.cache idx = p ∧ idx = indexOf p)
        ∧ (writesCache i = true → readSlot e.cache (indexOf p) ≠ p)
        ∧ (∀ dg drg dbg, i = .luma dg drg dbg → fitsDiff (dg + drg) dg (dg + dbg) = false)
        ∧ (∀ r g b, i = .rgb r g b →
            fitsDiff (delta8 r e.prev.r) (delta8 g e.prev.g) (delta8 b e.prev.b) = false
              ∧ fitsLuma (delta8 r e.prev.r) (delta8 g e.prev.g) (delta8 b e.prev.b) = false)
        ∧ (∀ r g b a, i = .rgba r g b a → a ≠ e.prev.a ∧ e.channels ≠ 3)

/-- R93 (e): of two RUN chunks in a row the first has payload 61, that is, stands for 62 pixels: among all the units ENC
emits for any pixels still to come in the image, from any state of ENC. -/
def Obligations.RunsFollowOnlyFullRuns : Prop :=
  ∀ (e : Enc) (ps : List Pixel), e.pos.toNat + ps.length ≤ e.total.toNat →
    ∀ (front back : List Instr) (n m : Nat), unitsOfPixels e ps = front ++ .run n :: .run m :: back → n = 62

/-! ## Arithmetic -/

/-- R130, R131: the hash index, and the 6-bit datapath that computes it. -/
def Obligations.IndexIsTheWeightedSum : Prop :=
  ∀ p : Pixel,
    (indexOf p).toNat = (p.r.toNat * 3 + p.g.toNat * 5 + p.b.toNat * 7 + p.a.toNat * 11) % 64
      ∧ indexOf p =
        p.r.setWidth 6 * 3 + p.g.setWidth 6 * 5 + p.b.setWidth 6 * 7 + p.a.setWidth 6 * 11

/-- R132, R133: the delta is in -128..127, congruent to the difference modulo 256, the same as the source's signed
formulation; the decoder's add is modulo 256, and inverts it. -/
def Obligations.DeltaIsInvertedByWrappingAdd : Prop :=
  (∀ (y : Byte) (d : Int), ((wrapAdd y d).toNat : Int) = (y.toNat + d) % 256) ∧ ∀ x y : Byte,
    -128 ≤ delta8 x y ∧ delta8 x y ≤ 127 ∧ (delta8 x y - ((x.toNat : Int) - y.toNat)) % 256 = 0
      ∧ delta8 x y = (x.toInt - y.toInt).bmod 256 ∧ wrapAdd y (delta8 x y) = x

/-- R134: the DIFF range test; and R157 to R160: a pixel that missed the cache with its alpha unchanged is coded as DIFF
exactly when its deltas are in that range, else as LUMA exactly when they are in the LUMA range, and else as RGB. -/
def Obligations.DeltaUnitIsChosenByRange : Prop :=
  (∀ dr dg db : Int,
      fitsDiff dr dg db = true ↔ (-2 ≤ dr ∧ dr ≤ 1) ∧ (-2 ≤ dg ∧ dg ≤ 1) ∧ -2 ≤ db ∧ db ≤ 1)
    ∧ ∀ prev p : Pixel,
        let dr := delta8 p.r prev.r
        let dg := delta8 p.g prev.g
        let db := delta8 p.b prev.b
        let inDiff : Prop := (-2 ≤ dr ∧ dr ≤ 1) ∧ (-2 ≤ dg ∧ dg ≤ 1) ∧ -2 ≤ db ∧ db ≤ 1
        let inLuma : Prop :=
          (-32 ≤ dg ∧ dg ≤ 31) ∧ (-8 ≤ dr - dg ∧ dr - dg ≤ 7) ∧ -8 ≤ db - dg ∧ db - dg ≤ 7
        (inDiff → deltaUnit prev p = .diff dr dg db)
          ∧ (¬ inDiff → inLuma → deltaUnit prev p = .luma dg (dr - dg) (db - dg))
          ∧ (¬ inDiff → ¬ inLuma → deltaUnit prev p = .rgb p.r p.g p.b)

/-- R135: the LUMA range test, and that it cannot be observed whether the second differences wrap to 8 bits. -/
def Obligations.SecondDifferencesMayWrap : Prop :=
  ∀ dr dg db : Int, -128 ≤ dr → dr ≤ 127 → -128 ≤ dg → dg ≤ 127 → -128 ≤ db → db ≤ 127 →
    (fitsLuma dr dg db = true ↔
        (-32 ≤ dg ∧ dg ≤ 31) ∧ (-8 ≤ dr - dg ∧ dr - dg ≤ 7) ∧ -8 ≤ db - dg ∧ db - dg ≤ 7)
      ∧ fitsLuma dr dg db =
        (inRange (-32) 31 dg && inRange (-8) 7 ((dr - dg).bmod 256) && inRange (-8) 7 ((db - dg).bmod 256))

/-- R25, R26: `total` is the full product of the dimensions; it never wraps. -/
def Obligations.TotalIsTheFullProduct : Prop :=
  ∀ w h : Dim, (pixelTotal w h).toNat = w.toNat * h.toNat

/-! ## The machine -/

/-- R190, R191: when DEC's turn comes and the bytes at the head of BIN decode, at the enabled position, to a unit, the
step is that unit's meaning with its bytes consumed; so too when the agenda is empty and it is DEC's turn, which passes
to ENC. -/
def Obligations.StepRunsTheDecodedUnit : Prop :=
  (∀ (s : State) (rest : List Move) (pos : Position) (i : Instr) (left : List Byte),
      s.agenda = .turn .dec :: rest → enabledAt pos s.dec = true → decode pos s.bin = .ok (i, left) →
      step s = exec i { s with agenda := rest, bin := left })
    ∧ ∀ (s : State) (pos : Position) (i : Instr) (left : List Byte),
        s.agenda = [] → s.turn = .dec → enabledAt pos s.dec = true → decode pos s.bin = .ok (i, left) →
        step s = exec i { s with turn := .enc, bin := left }

/-- The machine never stops on a unit: the only refusals are moves the environment does not have (U16, R51; log 4), and
each is refused exactly there. -/
def Obligations.StepStopsOnlyOnForeignMoves : Prop :=
  ∀ (s : State) (r : Refusal), step s = .refused r ↔
    (r = .bytesAfterEnd ∧ s.binEnd = true ∧ decBusy s.dec = true ∧ ∃ bs rest, s.agenda = .bytes bs :: rest)
      ∨ (r = .withdrawnInCall ∧ ∃ rest,
          (s.agenda = .dropBytes :: rest ∧ decBusy s.dec = true)
            ∨ (s.agenda = .dropPixels :: rest ∧ encBusy s.enc = true))

/-- R20: no move of ENC's side touches DEC or its streams, and no move of DEC's side touches ENC or its streams. -/
def Obligations.ContextsDoNotTouchEachOther : Prop :=
  ∀ (s t : State) (m : Move) (rest : List Move), s.agenda = m :: rest → step s = .next t →
    (moveSide m = some .enc → t.dec = s.dec ∧ t.bin = s.bin ∧ t.binEnd = s.binEnd ∧ t.pout = s.pout)
      ∧ (moveSide m = some .dec → t.enc = s.enc ∧ t.pin = s.pin ∧ t.bout = s.bout)

/-- R20: ENC's side reads nothing of DEC's. Two states that agree on ENC and PIN agree after a move of ENC's side, and
append the same bytes. -/
def Obligations.EncoderReadsNothingOfTheDecoder : Prop :=
  ∀ (s u s' : State) (m : Move) (rest rest' : List Move), moveSide m = some .enc →
    s.agenda = m :: rest → u.agenda = m :: rest' → s.enc = u.enc → s.pin = u.pin → step s = .next s' →
    ∃ u' out, step u = .next u' ∧ u'.enc = s'.enc ∧ u'.pin = s'.pin
      ∧ s'.bout = s.bout ++ out ∧ u'.bout = u.bout ++ out

/-- R20: DEC's side reads nothing of ENC's. Two states that agree on DEC, BIN and `bin_end` agree after a move of DEC's
side, and append the same pixels. -/
def Obligations.DecoderReadsNothingOfTheEncoder : Prop :=
  ∀ (s u s' : State) (m : Move) (rest rest' : List Move), moveSide m = some .dec →
    s.agenda = m :: rest → u.agenda = m :: rest' → s.dec = u.dec → s.bin = u.bin → s.binEnd = u.binEnd →
    step s = .next s' →
    ∃ u' out, step u = .next u' ∧ u'.dec = s'.dec ∧ u'.bin = s'.bin ∧ u'.binEnd = s'.binEnd
      ∧ s'.pout = s.pout ++ out ∧ u'.pout = u.pout ++ out

/-- R243: the interleaving of the two contexts cannot be observed: a move of ENC's side and one of DEC's side give the
same state in either order. -/
def Obligations.InterleavingIsUnobservable : Prop :=
  ∀ (s t : State) (a b : Move) (rest : List Move), moveSide a = some .enc → moveSide b = some .dec →
    (Host.Core.run core 2 { s with agenda := a :: b :: rest } = .next t ↔
      Host.Core.run core 2 { s with agenda := b :: a :: rest } = .next t)

/-- R51, R60 (c), R63: outputs are only ever appended to, inputs are taken from the front by turns, and only their
sources add to them. -/
def Obligations.StreamsKeepTheirOrder : Prop :=
  ∀ s t : State, step s = .next t →
    (∃ out, t.bout = s.bout ++ out) ∧ (∃ out, t.pout = s.pout ++ out)
      ∧ ((∃ n, t.bin = s.bin.drop n) ∨ ∃ bs rest, s.agenda = .bytes bs :: rest ∧ t.bin = s.bin ++ bs)
      ∧ ((∃ n, t.pin = s.pin.drop n) ∨ ∃ ps rest, s.agenda = .pixels ps :: rest ∧ t.pin = s.pin ++ ps)

/-! ## Invariants -/

/-- Both invariants hold at reset. -/
def Obligations.ResetMeetsTheInvariants : Prop := machineInv State.reset

/-- R37 with what holds of a call between steps: every step keeps them, from every state that meets them. -/
def Obligations.StepKeepsTheInvariants : Prop :=
  ∀ s t : State, machineInv s → step s = .next t → machineInv t

/-- R25, R26, R29, R30, R113: every step keeps what holds of a call between steps: no transient phase, exact totals,
header registers valid or cleared, the run flushed at the last pixel, DONE only when complete. -/
def Obligations.StepKeepsTheCallInvariant : Prop :=
  ∀ s t : State, callInv s → step s = .next t → callInv t

/-- R37: in every state reachable from reset, whatever the host and the sources do, R37 holds. -/
def Obligations.ReachableStatesMeetR37 : Prop := ∀ s : State, Reachable s → registerInv s

/-! ## Lockstep and round trip -/

/-- R203: one pixel keeps the contexts in lockstep. If DEC stands where ENC stands, then executing the units ENC emits
for a pixel leaves DEC where ENC then stands, and what DEC has delivered and ENC still owes grows by exactly that
pixel. -/
def Obligations.OnePixelKeepsLockstep : Prop :=
  ∀ (e : Enc) (s : State) (p : Pixel), inLockstep e s.dec → e.run.toNat ≤ 61 → e.pos < e.total →
    ∃ t, execUnits (encPixelUnits e p) s = .next t ∧ inLockstep (encPixelState e p) t.dec
      ∧ pixelsOut t ++ pendingPixels (encPixelState e p) = pixelsOut s ++ pendingPixels e ++ [p]

/-- R202: the bytes of an encode call, fed to a decode call, give back the header and the working pixels, with no
error, from whatever states at rest the two calls start. Where `bin_end` is still high from an earlier call it rests on
the accepted `DecStart` lowering it, the model's choice (log 4). -/
def Obligations.DecodeOfEncodeGivesTheImageBack : Prop :=
  ∀ (s u : State) (w h : Dim) (c sp : Byte) (ps : List Pixel),
    c = 3 ∨ c = 4 → ps.length = w.toNat * h.toNat →
    encBusy s.enc = false → s.pin = [] → decBusy u.dec = false → u.bin = [] →
    s.agenda = encodeCall w h c sp ps →
    ∃ s' bytes, Host.Core.run core (ps.length + 3) s = .next s' ∧ encodeResult s s' = .finished bytes
      ∧ (u.agenda = decodeCall bytes (ps.length + 2) →
          ∃ u', Host.Core.run core (ps.length + 5) u = .next u'
            ∧ decodeResult u u' = .finished (ps.map (workingPixel c))
            ∧ u'.dec.err = .none ∧ u'.bin = []
            ∧ u'.dec.width = w ∧ u'.dec.height = h ∧ u'.dec.channels = c ∧ u'.dec.colorspace = sp)
end

