-- ==== Sys2Proof/Laws/State.lean ====
section
/-! SUPPORT. What each named update of the state leaves in each field, one lemma per field, by definition. -/

namespace Sys2Proof.Machine

open Sys2Proof

variable (s : State) (e : Enc) (d : Dec) (bs : List Byte) (os : List ByteOut) (ps : List Pixel) (p : Pixel) (n : Nat)

/-! ## withEnc -/
@[simp] theorem withEnc_enc : (withEnc e s).enc = e := rfl
@[simp] theorem withEnc_dec : (withEnc e s).dec = s.dec := rfl
@[simp] theorem withEnc_pin : (withEnc e s).pin = s.pin := rfl
@[simp] theorem withEnc_bin : (withEnc e s).bin = s.bin := rfl
@[simp] theorem withEnc_binEnd : (withEnc e s).binEnd = s.binEnd := rfl
@[simp] theorem withEnc_bout : (withEnc e s).bout = s.bout := rfl
@[simp] theorem withEnc_pout : (withEnc e s).pout = s.pout := rfl
@[simp] theorem withEnc_agenda : (withEnc e s).agenda = s.agenda := rfl
@[simp] theorem withEnc_turn : (withEnc e s).turn = s.turn := rfl

/-! ## withDec -/
@[simp] theorem withDec_enc : (withDec d s).enc = s.enc := rfl
@[simp] theorem withDec_dec : (withDec d s).dec = d := rfl
@[simp] theorem withDec_pin : (withDec d s).pin = s.pin := rfl
@[simp] theorem withDec_bin : (withDec d s).bin = s.bin := rfl
@[simp] theorem withDec_binEnd : (withDec d s).binEnd = s.binEnd := rfl
@[simp] theorem withDec_bout : (withDec d s).bout = s.bout := rfl
@[simp] theorem withDec_pout : (withDec d s).pout = s.pout := rfl
@[simp] theorem withDec_agenda : (withDec d s).agenda = s.agenda := rfl
@[simp] theorem withDec_turn : (withDec d s).turn = s.turn := rfl

/-! ## emitBytes -/
@[simp] theorem emitBytes_enc : (emitBytes os s).enc = s.enc := rfl
@[simp] theorem emitBytes_dec : (emitBytes os s).dec = s.dec := rfl
@[simp] theorem emitBytes_pin : (emitBytes os s).pin = s.pin := rfl
@[simp] theorem emitBytes_bin : (emitBytes os s).bin = s.bin := rfl
@[simp] theorem emitBytes_binEnd : (emitBytes os s).binEnd = s.binEnd := rfl
@[simp] theorem emitBytes_bout : (emitBytes os s).bout = s.bout ++ os := rfl
@[simp] theorem emitBytes_pout : (emitBytes os s).pout = s.pout := rfl
@[simp] theorem emitBytes_agenda : (emitBytes os s).agenda = s.agenda := rfl
@[simp] theorem emitBytes_turn : (emitBytes os s).turn = s.turn := rfl

/-! ## leaveBytes and leavePixels -/
@[simp] theorem leaveBytes_enc : (leaveBytes bs s).enc = s.enc := rfl
@[simp] theorem leaveBytes_dec : (leaveBytes bs s).dec = s.dec := rfl
@[simp] theorem leaveBytes_pin : (leaveBytes bs s).pin = s.pin := rfl
@[simp] theorem leaveBytes_bin : (leaveBytes bs s).bin = bs := rfl
@[simp] theorem leaveBytes_binEnd : (leaveBytes bs s).binEnd = s.binEnd := rfl
@[simp] theorem leaveBytes_bout : (leaveBytes bs s).bout = s.bout := rfl
@[simp] theorem leaveBytes_pout : (leaveBytes bs s).pout = s.pout := rfl
@[simp] theorem leaveBytes_agenda : (leaveBytes bs s).agenda = s.agenda := rfl
@[simp] theorem leaveBytes_turn : (leaveBytes bs s).turn = s.turn := rfl
@[simp] theorem leavePixels_enc : (leavePixels ps s).enc = s.enc := rfl
@[simp] theorem leavePixels_dec : (leavePixels ps s).dec = s.dec := rfl
@[simp] theorem leavePixels_pin : (leavePixels ps s).pin = ps := rfl
@[simp] theorem leavePixels_bin : (leavePixels ps s).bin = s.bin := rfl
@[simp] theorem leavePixels_binEnd : (leavePixels ps s).binEnd = s.binEnd := rfl
@[simp] theorem leavePixels_bout : (leavePixels ps s).bout = s.bout := rfl
@[simp] theorem leavePixels_pout : (leavePixels ps s).pout = s.pout := rfl
@[simp] theorem leavePixels_agenda : (leavePixels ps s).agenda = s.agenda := rfl
@[simp] theorem leavePixels_turn : (leavePixels ps s).turn = s.turn := rfl

/-! ## deliver -/
@[simp] theorem deliver_enc : (deliver n p s).enc = s.enc := rfl
@[simp] theorem deliver_dec :
    (deliver n p s).dec = { s.dec with count := s.dec.count + BitVec.ofNat 64 n } := rfl
@[simp] theorem deliver_pin : (deliver n p s).pin = s.pin := rfl
@[simp] theorem deliver_bin : (deliver n p s).bin = s.bin := rfl
@[simp] theorem deliver_binEnd : (deliver n p s).binEnd = s.binEnd := rfl
@[simp] theorem deliver_bout : (deliver n p s).bout = s.bout := rfl
@[simp] theorem deliver_pout : (deliver n p s).pout = s.pout ++ pixelUnits s.dec n p := rfl
@[simp] theorem deliver_agenda : (deliver n p s).agenda = s.agenda := rfl
@[simp] theorem deliver_turn : (deliver n p s).turn = s.turn := rfl

/-! ## setPrev, storePixel, raise: updates of one context -/
theorem setPrev_eq : setPrev p s = withDec { s.dec with prev := p } s := rfl
theorem storePixel_eq :
    storePixel p s = withDec { s.dec with cache := writeSlot s.dec.cache (indexOf p) p } s := rfl
@[simp] theorem raise_enc_eq (code : ErrCode) :
    raise .enc code s = withEnc { s.enc with err := code, phase := .error } s := rfl
@[simp] theorem raise_dec_eq (code : ErrCode) :
    raise .dec code s = withDec { s.dec with err := code, phase := .error } s := rfl

/-! ## hardwareReset -/
@[simp] theorem hardwareReset_enc : (hardwareReset s).enc = Enc.reset := rfl
@[simp] theorem hardwareReset_dec : (hardwareReset s).dec = Dec.reset := rfl
@[simp] theorem hardwareReset_pin : (hardwareReset s).pin = s.pin := rfl
@[simp] theorem hardwareReset_bin : (hardwareReset s).bin = s.bin := rfl
@[simp] theorem hardwareReset_binEnd : (hardwareReset s).binEnd = s.binEnd := rfl
@[simp] theorem hardwareReset_bout : (hardwareReset s).bout = s.bout := rfl
@[simp] theorem hardwareReset_pout : (hardwareReset s).pout = s.pout := rfl
@[simp] theorem hardwareReset_agenda : (hardwareReset s).agenda = s.agenda := rfl
@[simp] theorem hardwareReset_turn : (hardwareReset s).turn = s.turn := rfl

end Sys2Proof.Machine
end

