-- ==== Sys2Proof/Laws/Ops.lean ====
section
/-! SUPPORT. What each shared operation can do, said once: later proofs cite these instead of unfolding. -/

namespace Sys2Proof.Machine

open Sys2Proof

/-! ## The cache -/

@[simp] theorem readSlot_writeSlot_same (c : Cache) (i : Slot) (p : Pixel) :
    readSlot (writeSlot c i p) i = p := by
  simp [readSlot, writeSlot, Vector.get_eq_getElem]

theorem readSlot_writeSlot_other (c : Cache) {i j : Slot} (p : Pixel) (h : j ≠ i) :
    readSlot (writeSlot c i p) j = readSlot c j := by
  have : i.toNat ≠ j.toNat := fun e => h (BitVec.eq_of_toNat_eq e.symm)
  simp [readSlot, writeSlot, Vector.get_eq_getElem, this]

@[simp] theorem readSlot_emptyCache (i : Slot) : readSlot emptyCache i = Pixel.transparentBlack := by
  simp [readSlot, emptyCache, Vector.get_eq_getElem]

/-- A slot after a write: the written pixel, or what it was. -/
theorem readSlot_writeSlot (c : Cache) (i j : Slot) (p : Pixel) :
    readSlot (writeSlot c i p) j = if j = i then p else readSlot c j := by
  split
  · subst j; simp
  · exact readSlot_writeSlot_other c p ‹_›

/-- Writing what the slot holds changes nothing. -/
theorem writeSlot_readSlot (c : Cache) (i : Slot) : writeSlot c i (readSlot c i) = c := by
  simp [readSlot, writeSlot, Vector.get_eq_getElem]

/-! ## Delivered pixels -/

@[simp] theorem length_pixelUnits (d : Dec) (n : Nat) (p : Pixel) : (pixelUnits d n p).length = n := by
  simp [pixelUnits]

/-- All units of one delivery carry the same pixel. -/
@[simp] theorem pixel_pixelUnits (d : Dec) (n : Nat) (p : Pixel) :
    (pixelUnits d n p).map PixelOut.pixel = List.replicate n p := by
  simp [pixelUnits, Function.comp_def]

theorem pixelUnits_one (d : Dec) (p : Pixel) :
    pixelUnits d 1 p = [⟨p, d.count.toNat + 1 == d.total.toNat⟩] := by
  simp [pixelUnits]

/-- The common tail of the chunks that write the cache, in one piece (spec/43_decoder.md R198). -/
theorem postUpdate_eq (p : Pixel) (s : State) :
    postUpdate p s =
      { s with
        pout := s.pout ++ [⟨p, s.dec.count.toNat + 1 == s.dec.total.toNat⟩]
        dec := { s.dec with
          cache := writeSlot s.dec.cache (indexOf p) p, prev := p, count := s.dec.count + 1 } } := by
  simp [postUpdate, deliver, setPrev, storePixel, withDec, pixelUnits]

/-! ## Emitted bytes -/

@[simp] theorem byte_plainBytes (bs : List Byte) : (plainBytes bs).map ByteOut.byte = bs := by
  simp [plainBytes, Function.comp_def]

@[simp] theorem byte_finalBytes (bs : List Byte) : (finalBytes bs).map ByteOut.byte = bs := by
  induction bs with
  | nil => rfl
  | cons b bs ih =>
    cases bs with
    | nil => rfl
    | cons b' bs => simpa [finalBytes] using ih

/-! ## Enabling -/

/-- A meaning answers a next state exactly when its step is enabled. -/
theorem whenEnabled_next {b : Bool} {t u : State} :
    whenEnabled b t = .next u ↔ b = true ∧ t = u := by
  cases b <;> simp [whenEnabled]

theorem decChunkEnabled_iff (d : Dec) : decChunkEnabled d = true ↔ d.phase = .chunks ∧ d.count < d.total := by
  simp [decChunkEnabled]

theorem decHeaderEnabled_iff (d : Dec) : decHeaderEnabled d = true ↔ d.phase = .header := by
  simp [decHeaderEnabled]

theorem decTrailerEnabled_iff (d : Dec) : decTrailerEnabled d = true ↔ d.phase = .chunks ∧ d.count = d.total := by
  simp [decTrailerEnabled]

theorem encPixelEnabled_iff (e : Enc) : encPixelEnabled e = true ↔ e.phase = .pixels ∧ e.pos < e.total := by
  simp [encPixelEnabled]

theorem encFinishEnabled_iff (e : Enc) : encFinishEnabled e = true ↔ e.phase = .pixels ∧ e.pos = e.total := by
  simp [encFinishEnabled]

/-- A context is busy in the phases of a call in progress (spec/10_state.md R31). -/
theorem encBusy_iff (e : Enc) : encBusy e = true ↔ e.phase = .header ∨ e.phase = .pixels ∨ e.phase = .trailer := by
  cases h : e.phase <;> simp [encBusy, h]

theorem decBusy_iff (d : Dec) : decBusy d = true ↔ d.phase = .header ∨ d.phase = .chunks ∨ d.phase = .trailer := by
  cases h : d.phase <;> simp [decBusy, h]

/-- The position of the next unit: what the phase and the counts say (spec/43_decoder.md R190). -/
theorem decPosition_cases (d : Dec) :
    (d.phase = .header ∧ decPosition d = some .header)
      ∨ (d.phase = .chunks ∧ d.count < d.total ∧ decPosition d = some .chunk)
      ∨ (d.phase = .chunks ∧ d.count = d.total ∧ decPosition d = some .trailer)
      ∨ (d.phase = .chunks ∧ d.total < d.count ∧ decPosition d = none)
      ∨ (d.phase ≠ .header ∧ d.phase ≠ .chunks ∧ decPosition d = none) := by
  unfold decPosition
  cases h : d.phase <;> simp [decHeaderEnabled, decChunkEnabled, decTrailerEnabled, h]
  simp only [BitVec.lt_def, ← BitVec.toNat_inj]
  rcases Nat.lt_trichotomy d.count.toNat d.total.toNat with hlt | heq | hgt
  · simp [hlt]
  · simp [heq]
  · simp [hgt, not_lt.mpr hgt.le, hgt.ne']

end Sys2Proof.Machine
end

