-- ==== Sys2Proof/Laws/Turn.lean ====
section
/-! SUPPORT. What a turn of a context and a step of the machine can do: one inversion lemma each. -/

namespace Sys2Proof.Machine

open Sys2Proof

/-- A unit decoded at a position is a unit of that position. -/
theorem position_of_decode {pos : Position} {bs rest : List Byte} {i : Instr}
    (h : decode pos bs = .ok (i, rest)) : i.position = pos := by
  cases pos with
  | header =>
    simp only [decode] at h
    unfold decodeHeader at h
    split at h
    · split at h
      · unfold decodeHeaderFields at h
        split at h
        · cases h; rfl
        · cases h
      · cases h
    · cases h
  | chunk =>
    simp only [decode] at h
    unfold decodeChunk at h
    split at h
    · unfold decodeTagged at h
      split at h
      · unfold decodeRgba at h; split at h <;> cases h; rfl
      · unfold decodeRgb at h; split at h <;> cases h; rfl
      · cases h; rfl
      · cases h; rfl
      · cases h; rfl
      · unfold decodeLuma at h; split at h <;> cases h; rfl
    · cases h
  | trailer =>
    simp only [decode] at h
    unfold decodeTrailer at h
    split at h <;> cases h
    rfl

/-- What a unit was decoded from: a suffix of the bytes is left. -/
theorem suffix_of_decode {pos : Position} {bs rest : List Byte} {i : Instr}
    (h : decode pos bs = .ok (i, rest)) : ∃ front, bs = front ++ rest := by
  cases pos with
  | header =>
    simp only [decode] at h
    unfold decodeHeader at h
    split at h
    next m0 m1 m2 m3 more =>
      split at h
      · unfold decodeHeaderFields at h
        split at h
        next w3 w2 w1 w0 h3 h2 h1 h0 c s left =>
          cases h
          exact ⟨[m0, m1, m2, m3, w3, w2, w1, w0, h3, h2, h1, h0, c, s], rfl⟩
        · cases h
      · cases h
    · cases h
  | chunk =>
    simp only [decode] at h
    unfold decodeChunk at h
    split at h
    next t more =>
      unfold decodeTagged at h
      split at h
      · unfold decodeRgba at h
        split at h
        next r g b a left => cases h; exact ⟨[t, r, g, b, a], rfl⟩
        · cases h
      · unfold decodeRgb at h
        split at h
        next r g b left => cases h; exact ⟨[t, r, g, b], rfl⟩
        · cases h
      · cases h; exact ⟨[t], rfl⟩
      · cases h; exact ⟨[t], rfl⟩
      · cases h; exact ⟨[t], rfl⟩
      · unfold decodeLuma at h
        split at h
        next s left => cases h; exact ⟨[t, s], rfl⟩
        · cases h
    · cases h
  | trailer =>
    simp only [decode] at h
    unfold decodeTrailer at h
    split at h
    next a b c d e f g k left => cases h; exact ⟨[a, b, c, d, e, f, g, k], rfl⟩
    · cases h

/-- Everything DEC's turn can do: nothing enabled, a unit executed with its bytes consumed, an input that has ended or
not yet arrived, or a wrong magic. -/
theorem decTurn_cases (s : State) :
    (decPosition s.dec = none ∧ decTurn s = .next s)
      ∨ ∃ pos, decPosition s.dec = some pos ∧
          ((∃ i rest, decode pos s.bin = .ok (i, rest) ∧ decTurn s = exec i (leaveBytes rest s))
            ∨ (decode pos s.bin = .error .short ∧ decTurn s = .next (decShort s))
            ∨ (decode pos s.bin = .error .badMagic ∧ decTurn s = .next (decBadMagic s))) := by
  unfold decTurn
  cases hp : decPosition s.dec with
  | none => exact .inl ⟨rfl, rfl⟩
  | some pos =>
    refine .inr ⟨pos, rfl, ?_⟩
    simp only [decFetch]
    match decode pos s.bin with
    | .ok (i, rest) => exact .inl ⟨i, rest, rfl, rfl⟩
    | .error .short => exact .inr (.inl ⟨rfl, rfl⟩)
    | .error .badMagic => exact .inr (.inr ⟨rfl, rfl⟩)

/-- Everything ENC's turn can do: a pixel coded, the trailer emitted, or nothing. -/
theorem encTurn_cases (s : State) :
    (∃ q rest, s.pin = q :: rest ∧ encPixelEnabled s.enc = true ∧ encTurn s = encPixel q (leavePixels rest s))
      ∨ (encFinishEnabled s.enc = true ∧ encTurn s = encFinish s)
      ∨ encTurn s = s := by
  unfold encTurn
  by_cases h : encPixelEnabled s.enc = true
  · cases hp : s.pin with
    | nil => exact .inr (.inr (by simp [h, encTake, hp]))
    | cons q rest => exact .inl ⟨q, rest, rfl, h, by simp [h, encTake, hp]⟩
  · by_cases hf : encFinishEnabled s.enc = true
    · exact .inr (.inl ⟨hf, by simp [h, hf]⟩)
    · exact .inr (.inr (by simp [h, hf]))

/-- Presented bytes are appended, but in a call that `bin_end` has ended. -/
theorem presentBytes_next {bs : List Byte} {s t : State} :
    presentBytes bs s = .next t ↔ (s.binEnd = true → decBusy s.dec = false) ∧ { s with bin := s.bin ++ bs } = t := by
  unfold presentBytes
  cases s.binEnd <;> cases decBusy s.dec <;> simp

/-- A step with a move to come makes that move. -/
theorem step_of_agenda {s : State} {m : Move} {rest : List Move} (h : s.agenda = m :: rest) :
    step s = performMove m { s with agenda := rest } := by
  simp [step, nextMove, h]

/-- A step with no move to come is a turn of the context whose turn it is. -/
theorem step_of_idleAgenda {s : State} (h : s.agenda = []) :
    step s = contextTurn s.turn { s with turn := otherContext s.turn } := by
  simp [step, nextMove, h, performMove]

/-- A step is a move made in a state that differs from `s` in agenda and turn alone. -/
theorem step_cases (s : State) :
    ∃ m agenda turn, step s = performMove m { s with agenda := agenda, turn := turn }
      ∧ (s.agenda = m :: agenda ∧ turn = s.turn
          ∨ s.agenda = [] ∧ agenda = [] ∧ m = .turn s.turn ∧ turn = otherContext s.turn) := by
  cases h : s.agenda with
  | nil => exact ⟨.turn s.turn, [], otherContext s.turn, by simp [step, nextMove, h], .inr ⟨rfl, rfl, rfl, rfl⟩⟩
  | cons m rest => exact ⟨m, rest, s.turn, by simp [step, nextMove, h], .inl ⟨rfl, rfl⟩⟩

end Sys2Proof.Machine
end

