-- ==== Sys2Proof/Laws/Encoder.lean ====
section
/-! SUPPORT. What coding one pixel leaves in each register of ENC. -/

namespace Sys2Proof.Machine

open Sys2Proof

variable (e : Enc) (p : Pixel)

@[simp] theorem encPixelState_width : (encPixelState e p).width = e.width := by
  unfold encPixelState; split <;> rfl
@[simp] theorem encPixelState_height : (encPixelState e p).height = e.height := by
  unfold encPixelState; split <;> rfl
@[simp] theorem encPixelState_channels : (encPixelState e p).channels = e.channels := by
  unfold encPixelState; split <;> rfl
@[simp] theorem encPixelState_colorspace : (encPixelState e p).colorspace = e.colorspace := by
  unfold encPixelState; split <;> rfl
@[simp] theorem encPixelState_total : (encPixelState e p).total = e.total := by
  unfold encPixelState; split <;> rfl
@[simp] theorem encPixelState_phase : (encPixelState e p).phase = e.phase := by
  unfold encPixelState; split <;> rfl
@[simp] theorem encPixelState_err : (encPixelState e p).err = e.err := by
  unfold encPixelState; split <;> rfl
/-- `pos` rises by exactly 1 (spec/10_state.md R25). -/
@[simp] theorem encPixelState_pos : (encPixelState e p).pos = e.pos + 1 := by
  unfold encPixelState; split <;> rfl
/-- After every EncPixel `prev` is the pixel coded (spec/42_encoder.md R162). -/
@[simp] theorem encPixelState_prev : (encPixelState e p).prev = p := by
  unfold encPixelState; split
  · exact (‹p = e.prev›).symm
  · rfl

/-- The cache after a pixel: written only on a miss (R152, R155, R156). -/
theorem encPixelState_cache :
    (encPixelState e p).cache = if p = e.prev ∨ cacheHit e.cache p = true then e.cache
      else writeSlot e.cache (indexOf p) p := by
  unfold encPixelState encCache
  by_cases hp : p = e.prev <;> by_cases hc : cacheHit e.cache p = true <;> simp [hp, hc]

/-- The run after a pixel: counted on or flushed (R152, R154). -/
theorem encPixelState_run :
    (encPixelState e p).run = if p = e.prev ∧ flushesRun e = false then e.run + 1 else 0 := by
  unfold encPixelState
  by_cases hp : p = e.prev <;> cases hf : flushesRun e <;> simp [hp]

/-- The chunk of a pixel that differs from `prev` is never a RUN (R155, R157). -/
theorem encUnit_ne_run (n : Nat) : encUnit e p ≠ .run n := by
  unfold encUnit deltaUnit
  dsimp only
  repeat' split
  all_goals simp

end Sys2Proof.Machine
end

