-- ==== Sys2Proof/Laws/Exec.lean ====
section
/-! SUPPORT. Everything the meaning of a unit can do, and everything a turn of DEC and a step can do, as inversion lemmas
over next states. -/

namespace Sys2Proof.Machine

open Sys2Proof

theorem legalChannels_iff (c : Byte) : Config.legalChannels c = true ↔ c = 3 ∨ c = 4 := by
  simp [Config.legalChannels]

/-- Everything a unit can do when it answers a next state: a header latched or refused by its channel count, a pixel
stored and delivered, a pixel looked up and delivered, a run delivered or past the count, a trailer taken. -/
theorem exec_next_cases {i : Instr} {s t : State} (h : exec i s = .next t) :
    (∃ w hh c sp, i = .header w hh c sp ∧ s.dec.phase = .header ∧ Config.legalChannels c = true
        ∧ t = withDec (headerLatched w hh c sp s.dec) s)
      ∨ (∃ w hh c sp, i = .header w hh c sp ∧ s.dec.phase = .header ∧ Config.legalChannels c = false
          ∧ t = raise .dec .unsupportedChannel s)
      ∨ (s.dec.phase = .chunks ∧ s.dec.count < s.dec.total ∧ writesCache i = true ∧ ∃ p, t = postUpdate p s)
      ∨ (s.dec.phase = .chunks ∧ s.dec.count < s.dec.total
          ∧ ∃ idx, i = .index idx ∧ t = deliver 1 (readSlot s.dec.cache idx) (setPrev (readSlot s.dec.cache idx) s))
      ∨ (s.dec.phase = .chunks ∧ s.dec.count < s.dec.total
          ∧ ∃ n, i = .run n ∧ s.dec.count.toNat + n ≤ s.dec.total.toNat ∧ t = deliver n s.dec.prev s)
      ∨ (s.dec.phase = .chunks ∧ s.dec.count < s.dec.total
          ∧ ∃ n, i = .run n ∧ s.dec.total.toNat < s.dec.count.toNat + n ∧ t = raise .dec .runOverrun s)
      ∨ (s.dec.phase = .chunks ∧ s.dec.count = s.dec.total ∧ i = .trailer
          ∧ t = withDec { s.dec with phase := .done } s) := by
  cases i with
  | header w hh c sp =>
    simp only [exec, execHeader, whenEnabled_next, decHeaderEnabled_iff] at h
    obtain ⟨hp, rfl⟩ := h
    cases hc : Config.legalChannels c
    · exact .inr (.inl ⟨w, hh, c, sp, rfl, hp, hc, by simp⟩)
    · exact .inl ⟨w, hh, c, sp, rfl, hp, hc, by simp⟩
  | index idx =>
    simp only [exec, execIndex, whenEnabled_next, decChunkEnabled_iff] at h
    exact .inr (.inr (.inr (.inl ⟨h.1.1, h.1.2, idx, rfl, h.2.symm⟩)))
  | diff dr dg db =>
    simp only [exec, execDiff, whenEnabled_next, decChunkEnabled_iff] at h
    exact .inr (.inr (.inl ⟨h.1.1, h.1.2, rfl, _, h.2.symm⟩))
  | luma dg drg dbg =>
    simp only [exec, execLuma, whenEnabled_next, decChunkEnabled_iff] at h
    exact .inr (.inr (.inl ⟨h.1.1, h.1.2, rfl, _, h.2.symm⟩))
  | run n =>
    simp only [exec, execRun, whenEnabled_next, decChunkEnabled_iff] at h
    obtain ⟨⟨hp, hl⟩, rfl⟩ := h
    by_cases hn : s.dec.total.toNat < s.dec.count.toNat + n
    · exact .inr (.inr (.inr (.inr (.inr (.inl ⟨hp, hl, n, rfl, hn, if_pos hn⟩)))))
    · exact .inr (.inr (.inr (.inr (.inl ⟨hp, hl, n, rfl, Nat.le_of_not_lt hn, if_neg hn⟩))))
  | rgb r g b =>
    simp only [exec, execRgb, whenEnabled_next, decChunkEnabled_iff] at h
    exact .inr (.inr (.inl ⟨h.1.1, h.1.2, rfl, _, h.2.symm⟩))
  | rgba r g b a =>
    simp only [exec, execRgba, whenEnabled_next, decChunkEnabled_iff] at h
    exact .inr (.inr (.inl ⟨h.1.1, h.1.2, rfl, _, h.2.symm⟩))
  | trailer =>
    simp only [exec, execTrailer, whenEnabled_next, decTrailerEnabled_iff] at h
    exact .inr (.inr (.inr (.inr (.inr (.inr ⟨h.1.1, h.1.2, rfl, h.2.symm⟩)))))

/-- What a step can be, by the move made: the state it is made in differs from `s` in agenda and turn alone. -/
theorem step_next_cases {s t : State} (h : step s = .next t) :
    ∃ agenda turn, (s.agenda ≠ [] → turn = s.turn) ∧
      let u : State := { s with agenda := agenda, turn := turn }
      (s.agenda = .reset :: agenda ∧ t = hardwareReset u)
        ∨ (∃ w hh c sp, s.agenda = .encStart w hh c sp :: agenda ∧ t = encStart w hh c sp u)
        ∨ (s.agenda = .decStart :: agenda ∧ t = decStart u)
        ∨ (∃ ps, s.agenda = .pixels ps :: agenda ∧ t = presentPixels ps u)
        ∨ (∃ bs, s.agenda = .bytes bs :: agenda ∧ (s.binEnd = true → decBusy s.dec = false)
            ∧ t = { u with bin := u.bin ++ bs })
        ∨ (s.agenda = .endBytes :: agenda ∧ t = raiseBinEnd u)
        ∨ (s.agenda = .dropPixels :: agenda ∧ encBusy s.enc = false ∧ t = leavePixels [] u)
        ∨ (s.agenda = .dropBytes :: agenda ∧ decBusy s.dec = false ∧ t = leaveBytes [] u)
        ∨ ((s.agenda = .turn .enc :: agenda ∨ s.agenda = [] ∧ s.turn = .enc) ∧ t = encTurn u)
        ∨ ((s.agenda = .turn .dec :: agenda ∨ s.agenda = [] ∧ s.turn = .dec) ∧ decTurn u = .next t) := by
  obtain ⟨m, agenda, turn, hs, ha⟩ := step_cases s
  rw [hs] at h
  refine ⟨agenda, turn, ?_, ?_⟩
  · rcases ha with ⟨-, ht⟩ | ⟨hn, -⟩
    · exact fun _ => ht
    · exact fun hne => absurd hn hne
  rcases ha with ⟨ha, -⟩ | ⟨hn, rfl, rfl, -⟩
  · cases m with
    | reset => cases h; exact .inl ⟨ha, rfl⟩
    | encStart w hh c sp => cases h; exact .inr (.inl ⟨w, hh, c, sp, ha, rfl⟩)
    | decStart => cases h; exact .inr (.inr (.inl ⟨ha, rfl⟩))
    | pixels ps => cases h; exact .inr (.inr (.inr (.inl ⟨ps, ha, rfl⟩)))
    | bytes bs =>
      simp only [performMove, presentBytes_next] at h
      exact .inr (.inr (.inr (.inr (.inl ⟨bs, ha, h.1, h.2.symm⟩))))
    | endBytes => cases h; exact .inr (.inr (.inr (.inr (.inr (.inl ⟨ha, rfl⟩)))))
    | dropPixels =>
      simp only [performMove, withdrawPixels] at h
      cases hb : encBusy s.enc <;> simp [hb] at h
      exact .inr (.inr (.inr (.inr (.inr (.inr (.inl ⟨ha, rfl, h.symm⟩))))))
    | dropBytes =>
      simp only [performMove, withdrawBytes] at h
      cases hb : decBusy s.dec <;> simp [hb] at h
      exact .inr (.inr (.inr (.inr (.inr (.inr (.inr (.inl ⟨ha, rfl, h.symm⟩)))))))
    | turn c =>
      cases c with
      | enc => cases h; exact .inr (.inr (.inr (.inr (.inr (.inr (.inr (.inr (.inl ⟨.inl ha, rfl⟩))))))))
      | dec => exact .inr (.inr (.inr (.inr (.inr (.inr (.inr (.inr (.inr ⟨.inl ha, h⟩))))))))
  · cases hc : s.turn with
    | enc =>
      simp only [hc, performMove, contextTurn] at h
      cases h
      exact .inr (.inr (.inr (.inr (.inr (.inr (.inr (.inr (.inl ⟨.inr ⟨hn, rfl⟩, rfl⟩))))))))
    | dec =>
      simp only [hc, performMove, contextTurn] at h
      exact .inr (.inr (.inr (.inr (.inr (.inr (.inr (.inr (.inr ⟨.inr ⟨hn, rfl⟩, h⟩))))))))

end Sys2Proof.Machine
end

