-- ==== Sys2Proof/Laws/PerInstr.lean ====
section
/-! SUPPORT. Statements about every unit as syntax, one lemma per constructor. -/

namespace Sys2Proof.Laws.EncodedLength

open Sys2Proof

/-- The length of a unit in bytes (spec/30_encoding.md R91, spec/20_memory.md R57). -/
def byteLength : Instr → Nat
  | .header _ _ _ _ => 14
  | .index _ => 1
  | .diff _ _ _ => 1
  | .luma _ _ _ => 2
  | .run _ => 1
  | .rgb _ _ _ => 4
  | .rgba _ _ _ _ => 5
  | .trailer => 8

/-- The encoder gives the unit its length. -/
def Statement (i : Instr) : Prop := (encode i).length = byteLength i

theorem header (w h : Dim) (c s : Byte) : Statement (.header w h c s) := rfl
theorem index (idx : Slot) : Statement (.index idx) := rfl
theorem diff (dr dg db : Int) : Statement (.diff dr dg db) := rfl
theorem luma (dg drg dbg : Int) : Statement (.luma dg drg dbg) := rfl
theorem run (n : Nat) : Statement (.run n) := rfl
theorem rgb (r g b : Byte) : Statement (.rgb r g b) := rfl
theorem rgba (r g b a : Byte) : Statement (.rgba r g b a) := rfl
theorem trailer : Statement .trailer := rfl

end Sys2Proof.Laws.EncodedLength

namespace Sys2Proof.Laws.TagByte

open Sys2Proof

/-- The tag bits of a unit's first byte: for the chunks as spec/30_encoding.md R83 to R88 have them, for the framing
units the first byte of the magic (R81) and of the trailer (R82). -/
def Statement (i : Instr) : Prop :=
  match i with
  | .header _ _ _ _ => (encode i).head? = some 0x71
  | .index _ => ∃ t, (encode i).head? = some t ∧ bitField t 6 2 = 0b00
  | .diff _ _ _ => ∃ t, (encode i).head? = some t ∧ bitField t 6 2 = 0b01
  | .luma _ _ _ => ∃ t, (encode i).head? = some t ∧ bitField t 6 2 = 0b10
  | .run _ => ∃ t, (encode i).head? = some t ∧ bitField t 6 2 = 0b11
  | .rgb _ _ _ => (encode i).head? = some 0xFE
  | .rgba _ _ _ _ => (encode i).head? = some 0xFF
  | .trailer => (encode i).head? = some 0x00

theorem tag_append (t : BitVec 2) (v : BitVec 6) : bitField (t ++ v : BitVec 8) 6 2 = t := by
  revert t v; decide

theorem header (w h : Dim) (c s : Byte) : Statement (.header w h c s) := rfl
theorem index (idx : Slot) : Statement (.index idx) := ⟨_, rfl, tag_append _ _⟩
theorem diff (dr dg db : Int) : Statement (.diff dr dg db) := by
  refine ⟨_, rfl, ?_⟩
  unfold encodeDiff
  generalize rebias 2 dr 2 = x, rebias 2 dg 2 = y, rebias 2 db 2 = z
  revert x y z; decide
theorem luma (dg drg dbg : Int) : Statement (.luma dg drg dbg) := ⟨_, rfl, tag_append _ _⟩
theorem run (n : Nat) : Statement (.run n) := ⟨_, rfl, tag_append _ _⟩
theorem rgb (r g b : Byte) : Statement (.rgb r g b) := rfl
theorem rgba (r g b a : Byte) : Statement (.rgba r g b a) := rfl
theorem trailer : Statement .trailer := rfl

end Sys2Proof.Laws.TagByte
end

