-- ==== Sys2Proof/Laws/Run.lean ====
section
/-! SUPPORT. Runs of several steps, taken apart and put together one step at a time. -/

namespace Sys2Proof.Machine

open Sys2Proof

theorem run_zero (s : State) : Host.Core.run core 0 s = .next s := rfl

/-- A run that ends in a next state is a step and a shorter run. -/
theorem run_succ_iff {k : Nat} {s t : State} :
    Host.Core.run core (k + 1) s = .next t ↔ ∃ u, step s = .next u ∧ Host.Core.run core k u = .next t := by
  simp only [Host.Core.run]
  cases h : step s with
  | next u =>
    have hc : core.step s = .next u := h
    rw [hc]
    simp
  | fault r => cases r
  | refused r =>
    have hc : core.step s = .refused r := h
    rw [hc]
    simp

/-- Runs compose. -/
theorem run_add {k n : Nat} {s u t : State} (h : Host.Core.run core k s = .next u)
    (h' : Host.Core.run core n u = .next t) : Host.Core.run core (k + n) s = .next t := by
  induction k generalizing s with
  | zero =>
    rw [run_zero] at h
    cases h
    simpa using h'
  | succ k ih =>
    obtain ⟨v, hv, hr⟩ := run_succ_iff.1 h
    rw [Nat.add_right_comm]
    exact run_succ_iff.2 ⟨v, hv, ih hr⟩

end Sys2Proof.Machine
end

