-- ==== Sys2Proof/Tests/Slice0.lean ====
section
/-! SUPPORT. The model's own tests. Expected results come from spec/95_test_vectors.md (the vector is named) or, for the
words, from the bit layouts of spec/30_encoding.md. Then, for every obligation with hypotheses, a concrete state and
operands that meet them. -/

namespace Sys2Proof.Machine.Tests

open Sys2Proof Sys2Proof.Machine

/-! ## Well-formedness: one ill-formed unit for each check -/

theorem test_header_channels_two_refused : ¬ (Instr.header 1 1 2 0).WellFormed := by decide
theorem test_header_channels_five_refused : ¬ (Instr.header 1 1 5 0).WellFormed := by decide
theorem test_diff_red_refused : ¬ (Instr.diff 2 0 0).WellFormed ∧ ¬ (Instr.diff (-3) 0 0).WellFormed := by decide
theorem test_diff_green_refused : ¬ (Instr.diff 0 2 0).WellFormed ∧ ¬ (Instr.diff 0 (-3) 0).WellFormed := by decide
theorem test_diff_blue_refused : ¬ (Instr.diff 0 0 2).WellFormed ∧ ¬ (Instr.diff 0 0 (-3)).WellFormed := by decide
theorem test_luma_green_refused : ¬ (Instr.luma 32 0 0).WellFormed ∧ ¬ (Instr.luma (-33) 0 0).WellFormed := by decide
theorem test_luma_red_refused : ¬ (Instr.luma 0 8 0).WellFormed ∧ ¬ (Instr.luma 0 (-9) 0).WellFormed := by decide
theorem test_luma_blue_refused : ¬ (Instr.luma 0 0 8).WellFormed ∧ ¬ (Instr.luma 0 0 (-9)).WellFormed := by decide
theorem test_run_zero_refused : ¬ (Instr.run 0).WellFormed := by decide
theorem test_run_sixtyThree_refused : ¬ (Instr.run 63).WellFormed := by decide

/-! ## Decoding words written out from spec/30_encoding.md -/

/-- R81: magic, width and height big-endian, channels, colorspace (T-HDR-3). -/
theorem test_decode_header :
    decode .header [0x71, 0x6F, 0x69, 0x66, 0x01, 0x02, 0x03, 0x04, 0xA0, 0xB0, 0xC0, 0xD0, 0x04, 0xEE, 0x55] =
      .ok (.header 0x01020304 0xA0B0C0D0 4 0xEE, [0x55]) := by decide

/-- R83: `00` and the slot number, 5 (T-DEC-1). -/
theorem test_decode_index : decode .chunk [0b00000101, 0xAA] = .ok (.index 5, [0xAA]) := by decide

/-- R84: `01`, then dr+2, dg+2, db+2: `73` is DIFF 1 -2 1 (T-STEP-3). -/
theorem test_decode_diff : decode .chunk [0b01110011, 0xAA] = .ok (.diff 1 (-2) 1, [0xAA]) := by decide

/-- R85: `10` and dg+32, then (dr-dg)+8 and (db-dg)+8: `99 A6` is LUMA -7 2 -2 (T-STEP-17). -/
theorem test_decode_luma :
    decode .chunk [0b10011001, 0b10100110, 0xAA] = .ok (.luma (-7) 2 (-2), [0xAA]) := by decide

/-- R86: `11` and the run less one: `C5` is RUN 6 (T-DEC-17). -/
theorem test_decode_run : decode .chunk [0b11000101, 0xAA] = .ok (.run 6, [0xAA]) := by decide

/-- R87: `FE` and three raw bytes, tag values among them (T-DEC-20). -/
theorem test_decode_rgb : decode .chunk [0xFE, 0xFF, 0xFE, 0xC0, 0xAA] = .ok (.rgb 0xFF 0xFE 0xC0, [0xAA]) := by decide

/-- R88: `FF` and four raw bytes (T-DEC-21). -/
theorem test_decode_rgba : decode .chunk [0xFF, 1, 2, 3, 4, 0xAA] = .ok (.rgba 1 2 3 4, [0xAA]) := by decide

/-- R82, R114: eight bytes, not compared (T-HDR-9). -/
theorem test_decode_trailer :
    decode .trailer [0xAA, 0xAA, 0xAA, 0xAA, 0xAA, 0xAA, 0xAA, 0xAA, 0x12] = .ok (.trailer, [0x12]) := by decide

/-- R90: the tag bytes at the edges of the ranges. -/
theorem test_tag_edges :
    [0x00, 0x3F, 0x40, 0x7F, 0x80, 0xBF, 0xC0, 0xFD, 0xFE, 0xFF].map tagKind =
      [.index, .index, .diff, .diff, .luma, .luma, .run, .run, .rgb, .rgba] := by decide

/-- The table's numbering: a chunk's first byte is its lowest eight bits (log 8). -/
theorem test_table_words :
    decodeTableWord 40 0x04030201FF = some (.rgba 1 2 3 4) ∧ decodeTableWord 16 0xA699 = some (.luma (-7) 2 (-2)) := by
  decide

/-! ## Small states -/

/-- The next state, if there is one. -/
def after (o : Host.Outcome State Fault Refusal) : Option State :=
  match o with
  | .next s => some s
  | .fault _ => none
  | .refused _ => none

/-- A refusal, if it is one. -/
def refusal (o : Host.Outcome State Fault Refusal) : Option Refusal :=
  match o with
  | .next _ => none
  | .fault _ => none
  | .refused r => some r

/-- DEC among the chunks of a `total` x 1 image, `count` pixels delivered, its turn next. -/
def chunkAt (prev : Pixel) (count total : Count) (bs : List Byte) : State :=
  { State.reset with
    dec := { Dec.reset with
      width := total.setWidth 32, height := 1, channels := 4, hdrValid := true
      prev := prev, count := count, total := total, phase := .chunks }
    bin := bs, agenda := [.turn .dec] }

/-- The same with a pixel in its own slot of the cache. -/
def chunkHolding (held prev : Pixel) (bs : List Byte) : State :=
  storePixel held (chunkAt prev 0 9 bs)

/-- DEC before a header, its turn next. -/
def headerAt (bs : List Byte) (ended : Bool) : State :=
  { State.reset with
    dec := { Dec.reset with phase := .header }, bin := bs, binEnd := ended, agenda := [.turn .dec] }

/-- ENC in a `total` x 1 image, its turn next and one pixel on PIN. -/
def pixelAt (prev : Pixel) (run : BitVec 6) (pos total : Count) (q : Pixel) : State :=
  { State.reset with
    enc := { Enc.reset with
      width := total.setWidth 32, height := 1, channels := 4
      prev := prev, run := run, pos := pos, total := total, phase := .pixels }
    pin := [q], agenda := [.turn .enc] }

/-- A state at rest whose next move is `m`. -/
def about (m : Move) : State := { State.reset with agenda := [m] }

/-- What a DEC step shows of a chunk: the pixels out, `prev`, `count`, and one slot of the cache. -/
def chunkView (i : Slot) (s : State) : List Pixel × Pixel × Count × Pixel :=
  (pixelsOut s, s.dec.prev, s.dec.count, readSlot s.dec.cache i)

/-- What an ENC step shows: the bytes out, `prev`, `run`, and one slot of the cache. -/
def pixelView (i : Slot) (s : State) : List Byte × Pixel × BitVec 6 × Pixel :=
  (s.bout.map ByteOut.byte, s.enc.prev, s.enc.run, readSlot s.enc.cache i)

/-! ## One step of the decoder -/

/-- T-DEC-1: INDEX of a slot never written; its own slot 0 is not written either. -/
theorem test_index :
    (after (step (chunkAt ⟨0, 0, 0, 255⟩ 0 9 [0x05]))).map (chunkView 0) =
      some ([⟨0, 0, 0, 0⟩], ⟨0, 0, 0, 0⟩, 1, ⟨0, 0, 0, 0⟩) := by decide

/-- T-DEC-2: INDEX of a slot that holds a pixel. -/
theorem test_index_held :
    (after (step (chunkHolding ⟨21, 0, 0, 0⟩ ⟨0, 0, 0, 255⟩ [0x3F]))).map (chunkView 63) =
      some ([⟨21, 0, 0, 0⟩], ⟨21, 0, 0, 0⟩, 1, ⟨21, 0, 0, 0⟩) := by decide

/-- T-DEC-3: DIFF wraps below zero. -/
theorem test_diff_wraps :
    (after (step (chunkAt ⟨0, 0, 0, 255⟩ 0 9 [0x40]))).map (chunkView 23) =
      some ([⟨254, 254, 254, 255⟩], ⟨254, 254, 254, 255⟩, 1, ⟨254, 254, 254, 255⟩) := by decide

/-- T-DEC-8: DIFF keeps alpha. -/
theorem test_diff_alpha :
    (after (step (chunkAt ⟨10, 20, 30, 77⟩ 0 9 [0x7B]))).map (chunkView 45) =
      some ([⟨11, 20, 31, 77⟩], ⟨11, 20, 31, 77⟩, 1, ⟨11, 20, 31, 77⟩) := by decide

/-- T-DEC-12: LUMA, red and blue relative to green, blue wrapping. -/
theorem test_luma :
    (after (step (chunkAt ⟨1, 0, 255, 255⟩ 0 9 [0xA8, 0xA6]))).map (chunkView 33) =
      some ([⟨11, 8, 5, 255⟩], ⟨11, 8, 5, 255⟩, 1, ⟨11, 8, 5, 255⟩) := by decide

/-- T-DEC-13: the second byte of LUMA is data even where it has a sentinel's value. -/
theorem test_luma_sentinel :
    (after (step (chunkAt ⟨0, 0, 0, 255⟩ 0 9 [0xA0, 0xFE]))).map (chunkView 52) =
      some ([⟨7, 0, 6, 255⟩], ⟨7, 0, 6, 255⟩, 1, ⟨7, 0, 6, 255⟩) := by decide

/-- T-DEC-17: RUN that exactly fills the image; `pout_last` with the last copy only. -/
theorem test_run_fills :
    (after (step (chunkAt ⟨7, 7, 7, 255⟩ 3 9 [0xC5]))).map (fun s => (s.pout, s.dec.count)) =
      some (List.replicate 5 ⟨⟨7, 7, 7, 255⟩, false⟩ ++ [⟨⟨7, 7, 7, 255⟩, true⟩], 9) := by decide

/-- T-ERR-13: RUN 62 in an image of 61 pixels. -/
theorem test_run_overruns :
    (after (step (chunkAt ⟨0, 0, 0, 255⟩ 0 61 [0xFD]))).map (fun s => (s.pout, s.dec.count, s.dec.err, s.dec.phase)) =
      some ([], 0, .runOverrun, .error) := by decide

/-- T-DEC-19: RGB takes its alpha from `prev`. -/
theorem test_rgb :
    (after (step (chunkAt ⟨9, 9, 9, 77⟩ 0 9 [0xFE, 1, 2, 3]))).map (chunkView 49) =
      some ([⟨1, 2, 3, 77⟩], ⟨1, 2, 3, 77⟩, 1, ⟨1, 2, 3, 77⟩) := by decide

/-- T-ERR-16: RGB cut short. -/
theorem test_rgb_truncated :
    (after (step { chunkAt ⟨0, 0, 0, 255⟩ 0 1 [0xFE, 1, 2] with binEnd := true })).map
        (fun s => (s.bin, s.pout, s.dec.count, s.dec.err)) = some ([], [], 0, .truncated) := by decide

/-- T-DEC-21: RGBA. -/
theorem test_rgba :
    (after (step (chunkAt ⟨0, 0, 0, 255⟩ 0 9 [0xFF, 1, 2, 3, 4]))).map (chunkView 14) =
      some ([⟨1, 2, 3, 4⟩], ⟨1, 2, 3, 4⟩, 1, ⟨1, 2, 3, 4⟩) := by decide

/-- T-DEC-22: RGBA equal to `prev` is still stored. -/
theorem test_rgba_equal :
    (after (step (chunkAt ⟨0, 0, 0, 255⟩ 0 9 [0xFF, 0, 0, 0, 255]))).map (chunkView 53) =
      some ([⟨0, 0, 0, 255⟩], ⟨0, 0, 0, 255⟩, 1, ⟨0, 0, 0, 255⟩) := by decide

/-- T-HDR-8: HEADER. -/
theorem test_header :
    let t := after (step (headerAt [0x71, 0x6F, 0x69, 0x66, 0, 0, 1, 0, 0, 0, 0, 2, 3, 1, 0xC0] false))
    t.map (fun s => (s.dec.width, s.dec.height, s.dec.total)) = some (256, 2, 512)
      ∧ t.map (fun s => (s.dec.channels, s.dec.colorspace, s.dec.hdrValid, s.bin)) = some (3, 1, true, [0xC0]) := by decide

/-- T-ERR-4 and T-ERR-3: four wrong bytes are a FormatError, three bytes are not compared. -/
theorem test_header_magic :
    (after (step (headerAt [0x71, 0x6F, 0x69, 0x67] true))).map (·.dec.err) = some .format
      ∧ (after (step (headerAt [1, 2, 3] true))).map (·.dec.err) = some .truncated := by decide

/-- T-HDR-11: TRAILER takes eight bytes. -/
theorem test_trailer :
    (after (step (chunkAt ⟨0, 0, 0, 255⟩ 1 1 [0, 0, 0, 0, 0, 0, 0, 1, 0x12, 0x34]))).map
        (fun s => (s.dec.phase, s.bin)) = some (.done, [0x12, 0x34]) := by decide

/-- T-ERR-11: seven bytes of a trailer. -/
theorem test_trailer_truncated :
    (after (step { chunkAt ⟨0, 0, 0, 255⟩ 1 1 [0, 0, 0, 0, 0, 0, 0] with binEnd := true })).map
        (fun s => (s.dec.phase, s.dec.err, s.dec.count)) = some (.error, .truncated, 1) := by decide

/-! ## One step of the encoder -/

/-- T-STEP-3: DIFF by wrap. -/
theorem test_encode_diff :
    (after (step (pixelAt ⟨255, 0, 255, 255⟩ 0 0 9 ⟨0, 254, 0, 255⟩))).map (pixelView 43) =
      some ([0x73], ⟨0, 254, 0, 255⟩, 0, ⟨0, 254, 0, 255⟩) := by decide

/-- T-STEP-6: LUMA at its lowest fields. -/
theorem test_encode_luma :
    (after (step (pixelAt ⟨100, 100, 100, 255⟩ 0 0 9 ⟨60, 68, 60, 255⟩))).map (pixelView 33) =
      some ([0x80, 0x00], ⟨60, 68, 60, 255⟩, 0, ⟨60, 68, 60, 255⟩) := by decide

/-- T-STEP-13: a red delta of -128 is RGB. -/
theorem test_encode_rgb :
    (after (step (pixelAt ⟨128, 0, 0, 255⟩ 0 0 9 ⟨0, 0, 0, 255⟩))).map (pixelView 53) =
      some ([0xFE, 0, 0, 0], ⟨0, 0, 0, 255⟩, 0, ⟨0, 0, 0, 255⟩) := by decide

/-- T-STEP-15: INDEX 0 from the zero-filled cache. -/
theorem test_encode_index :
    (after (step (pixelAt ⟨0, 0, 0, 255⟩ 0 0 9 ⟨0, 0, 0, 0⟩))).map (pixelView 0) =
      some ([0x00], ⟨0, 0, 0, 0⟩, 0, ⟨0, 0, 0, 0⟩) := by decide

/-- T-STEP-19: the run is flushed at 62. -/
theorem test_encode_run :
    (after (step (pixelAt ⟨7, 7, 7, 255⟩ 61 61 99 ⟨7, 7, 7, 255⟩))).map (pixelView 30) =
      some ([0xFD], ⟨7, 7, 7, 255⟩, 0, ⟨0, 0, 0, 0⟩) := by decide

/-- T-STEP-24: a pending run, then RGBA: six bytes. -/
theorem test_encode_rgba :
    (after (step (pixelAt ⟨7, 7, 7, 255⟩ 3 8 9 ⟨1, 2, 3, 4⟩))).map (pixelView 14) =
      some ([0xC2, 0xFF, 1, 2, 3, 4], ⟨1, 2, 3, 4⟩, 0, ⟨1, 2, 3, 4⟩) := by decide

/-- T-HDR-2: the header `EncStart` emits. -/
theorem test_encode_header :
    (after (step (about (.encStart 256 2 3 1)))).map (fun s => (s.bout.map ByteOut.byte, s.enc.total, s.enc.phase)) =
      some ([0x71, 0x6F, 0x69, 0x66, 0, 0, 1, 0, 0, 0, 0, 2, 3, 1], 512, .pixels) := by decide

/-- T-HDR-10: the trailer, `bout_last` with the `01`. -/
theorem test_encode_trailer :
    (after (step (pixelAt ⟨0, 0, 0, 255⟩ 0 1 1 ⟨0, 0, 0, 0⟩))).map (fun s => (s.bout, s.enc.phase, s.pin)) =
      some (List.replicate 7 ⟨0, false⟩ ++ [⟨1, true⟩], .done, [⟨0, 0, 0, 0⟩]) := by decide

/-- T-HASH-17, T-HASH-25: the index of some pixels. -/
theorem test_index_of :
    [(⟨9, 8, 7, 4⟩ : Pixel), ⟨64, 0, 0, 255⟩, ⟨128, 0, 0, 255⟩, ⟨255, 255, 255, 255⟩].map indexOf = [32, 53, 53, 38] := by
  decide

/-! ## Witnesses: the hypotheses of the obligations can be met

Each theorem names the obligation whose hypotheses it meets, clause by clause, at the ends of the ranges. -/

/-- Every constructor, at the ends of its operands' ranges. -/
theorem witness_DecodeInvertsEncode :
    (Instr.header 0xFFFFFFFF 0 3 0xFF).WellFormed ∧ (Instr.header 0 1 4 0).WellFormed ∧ (Instr.index 63).WellFormed
      ∧ (Instr.diff (-2) 1 (-2)).WellFormed ∧ (Instr.luma (-32) (-8) 7).WellFormed ∧ (Instr.luma 31 7 (-8)).WellFormed
      ∧ (Instr.run 1).WellFormed ∧ (Instr.run 62).WellFormed ∧ (Instr.rgb 0xFF 0xFE 0).WellFormed
      ∧ (Instr.rgba 0xFF 0xFE 0xFD 0xFC).WellFormed ∧ Instr.trailer.WellFormed := by decide

theorem witness_EncodeInvertsDecode :
    (Position.header ≠ .trailer
        ∧ decode .header [0x71, 0x6F, 0x69, 0x66, 0, 0, 0, 1, 0, 0, 0, 1, 5, 0] = .ok (.header 1 1 5 0, []))
      ∧ Position.chunk ≠ .trailer ∧ decode .chunk [0xFD, 1] = .ok (.run 62, [1]) := by decide

theorem witness_ChunkLengthIsTheTags :
    ([] : List Byte).length + 1 < chunkLength (tagKind 0x80)
      ∧ ([1, 2] : List Byte).length + 1 < chunkLength (tagKind 0xFE)
      ∧ ([1, 2, 3] : List Byte).length + 1 < chunkLength (tagKind 0xFF)
      ∧ chunkLength (tagKind 0xFF) ≤ ([1, 2, 3, 4] : List Byte).length + 1
      ∧ chunkLength (tagKind 0xFE) ≤ ([1, 2, 3] : List Byte).length + 1
      ∧ chunkLength (tagKind 0x3F) ≤ ([] : List Byte).length + 1 := by decide

theorem witness_ResetGivesEveryRegisterItsValue : (about .reset).agenda = .reset :: [] := by decide

/-- Busy; the two legal channel counts; an illegal one. -/
theorem witness_EncStartFollowsR110 :
    ({ pixelAt ⟨0, 0, 0, 255⟩ 0 2 4 ⟨0, 0, 0, 0⟩ with agenda := [.encStart 1 1 4 0] }).agenda = .encStart 1 1 4 0 :: []
      ∧ (pixelAt ⟨0, 0, 0, 255⟩ 0 2 4 ⟨0, 0, 0, 0⟩).enc.phase = .pixels
      ∧ (about (.encStart 3 2 3 0)).agenda = .encStart 3 2 3 0 :: []
      ∧ (about (.encStart 3 2 4 0)).agenda = .encStart 3 2 4 0 :: []
      ∧ (about (.encStart 1 1 5 0)).agenda = .encStart 1 1 5 0 :: []
      ∧ (about (.encStart 1 1 5 0)).enc.phase = .idle := by decide

/-- Busy, and not. -/
theorem witness_DecStartFollowsR111 :
    ({ headerAt [] false with agenda := [.decStart] }).agenda = .decStart :: [] ∧ (headerAt [] false).dec.phase = .header
      ∧ (about .decStart).agenda = .decStart :: [] ∧ (about .decStart).dec.phase = .idle := by decide

/-- A level that rises, and one that falls. -/
theorem witness_BinEndHoldsUntilDecStart :
    (∃ t, step (about .endBytes) = .next t ∧ (about .endBytes).binEnd = false ∧ t.binEnd = true)
      ∧ ∃ t, step { about .decStart with binEnd := true } = .next t ∧ t.binEnd = false :=
  ⟨⟨_, rfl, rfl, rfl⟩, _, rfl, rfl⟩

/-- A reset state and one in which an earlier call has ended. -/
theorem witness_StartForgetsEarlierCalls :
    (∃ s' u', (about (.encStart 1 1 4 0)).agenda = .encStart 1 1 4 0 :: []
        ∧ encBusy (about (.encStart 1 1 4 0)).enc = false
        ∧ encBusy { Enc.reset with run := 3, pos := 7, err := .unsupportedChannel, phase := .error } = false
        ∧ step (about (.encStart 1 1 4 0)) = .next s'
        ∧ step { about (.encStart 1 1 4 0) with
            enc := { Enc.reset with run := 3, pos := 7, err := .unsupportedChannel, phase := .error } } = .next u')
      ∧ ∃ s' u', (about .decStart).agenda = .decStart :: [] ∧ decBusy (about .decStart).dec = false
        ∧ decBusy { Dec.reset with count := 7, err := .truncated, phase := .error } = false
        ∧ step (about .decStart) = .next s'
        ∧ step { about .decStart with
            dec := { Dec.reset with count := 7, err := .truncated, phase := .error } } = .next u' :=
  ⟨⟨_, _, rfl, rfl, rfl, rfl, rfl⟩, _, _, rfl, rfl, rfl, rfl, rfl⟩

/-- Three bytes, four wrong ones, thirteen bytes, and fourteen with each kind of channel count. -/
theorem witness_DecHeaderFollowsR112 :
    (headerAt [0x71, 0x6F, 0x69] true).agenda = .turn .dec :: []
      ∧ (headerAt [0x71, 0x6F, 0x69] true).dec.phase = .header
      ∧ (headerAt [0x71, 0x6F, 0x69] true).bin.length = 3 ∧ (headerAt [0x71, 0x6F, 0x69] true).binEnd = true
      ∧ (headerAt [0x71, 0x6F, 0x69] false).binEnd = false
      ∧ (headerAt [0x71, 0x6F, 0x69, 0x67] false).bin.take 4 ≠ [0x71, 0x6F, 0x69, 0x66]
      ∧ (headerAt [0x71, 0x6F, 0x69, 0x66, 0, 0, 0, 0, 0, 0, 0, 0, 0] true).bin.length = 13
      ∧ (headerAt (encode (.header 1 1 3 0)) true).bin.getD 12 0 = 3
      ∧ (headerAt (encode (.header 1 1 4 0)) true).bin.getD 12 0 = 4
      ∧ (headerAt (encode (.header 1 1 5 0)) true).bin.getD 12 0 = 5
      ∧ (headerAt (encode (.header 1 1 5 0)) true).bin.length = 14 := by decide

theorem witness_HeaderCompletes : (headerAt [] false).dec.phase = .header := by decide

/-- Eight bytes; seven with the input ended; seven without. -/
theorem witness_DecTrailerFollowsR114 :
    let s := chunkAt ⟨0, 0, 0, 255⟩ 1 1 [1, 2, 3, 4, 5, 6, 7, 8]
    let t := chunkAt ⟨0, 0, 0, 255⟩ 1 1 [1, 2, 3, 4, 5, 6, 7]
    (s.agenda = .turn .dec :: [] ∧ s.dec.phase = .chunks ∧ s.dec.count = s.dec.total ∧ s.bin.length = 8)
      ∧ t.agenda = .turn .dec :: [] ∧ t.dec.phase = .chunks ∧ t.dec.count = t.dec.total ∧ t.bin.length = 7
      ∧ t.binEnd = false ∧ ({ t with binEnd := true }).binEnd = true := by decide

theorem witness_TrailerCompletes :
    (chunkAt ⟨0, 0, 0, 255⟩ 0 0 []).dec.phase = .chunks
      ∧ (chunkAt ⟨0, 0, 0, 255⟩ 0 0 []).dec.count = (chunkAt ⟨0, 0, 0, 255⟩ 0 0 []).dec.total := by decide

theorem witness_EncFinishEmitsTrailer :
    let s := pixelAt ⟨0, 0, 0, 255⟩ 0 1 1 ⟨0, 0, 0, 0⟩
    s.agenda = .turn .enc :: [] ∧ s.enc.phase = .pixels ∧ s.enc.pos = s.enc.total ∧ callInv s := by decide

/-- T-HDR-6 and T-HDR-9: a zero width and a zero height. -/
theorem witness_ZeroAreaImageHasNoChunk :
    (((0 : Dim) = 0 ∨ (5 : Dim) = 0) ∧ ((4 : Byte) = 3 ∨ (4 : Byte) = 4)
        ∧ encBusy State.reset.enc = false
        ∧ ({ State.reset with agenda := [.encStart 0 5 4 0, .turn .enc] }).agenda =
          .encStart 0 5 4 0 :: .turn .enc :: [])
      ∧ ((5 : Dim) = 0 ∨ (0 : Dim) = 0) ∧ ((3 : Byte) = 3 ∨ (3 : Byte) = 4)
        ∧ (headerAt [] false).dec.phase = .header ∧ (headerAt [] false).dec.count = 0
        ∧ (List.replicate 8 (0xAA : Byte)).length = 8
        ∧ ({ headerAt (encode (.header 5 0 3 9) ++ List.replicate 8 0xAA) false with
              agenda := [.turn .dec, .turn .dec] }).agenda = .turn .dec :: .turn .dec :: [] := by decide

/-- The last pixel of the smallest image and of the largest: RgbaGivesFourRawChannels, RgbKeepsAlpha,
IndexReadsAndDoesNotStore, DiffAddsWrapping, LumaAddsRelativeToGreen. -/
theorem witness_chunkEnabled :
    ((chunkAt ⟨1, 2, 3, 4⟩ 0 1 []).dec.phase = .chunks
        ∧ (chunkAt ⟨1, 2, 3, 4⟩ 0 1 []).dec.count < (chunkAt ⟨1, 2, 3, 4⟩ 0 1 []).dec.total)
      ∧ (chunkAt ⟨1, 2, 3, 4⟩ 0xFFFFFFFE00000000 0xFFFFFFFE00000001 []).dec.phase = .chunks
        ∧ (chunkAt ⟨1, 2, 3, 4⟩ 0xFFFFFFFE00000000 0xFFFFFFFE00000001 []).dec.count
            < (chunkAt ⟨1, 2, 3, 4⟩ 0xFFFFFFFE00000000 0xFFFFFFFE00000001 []).dec.total := by decide

/-- RUN 1 short of the end, RUN 62 exactly to the end. -/
theorem witness_RunRepeatsPrevious :
    let s := chunkAt ⟨7, 7, 7, 255⟩ 3 9 []
    let t := chunkAt ⟨7, 7, 7, 255⟩ 0 62 []
    (s.dec.phase = .chunks ∧ s.dec.count < s.dec.total ∧ 1 ≤ 1 ∧ 1 ≤ 62 ∧ s.dec.count.toNat + 1 ≤ s.dec.total.toNat)
      ∧ t.dec.phase = .chunks ∧ t.dec.count < t.dec.total ∧ 1 ≤ 62 ∧ 62 ≤ 62
        ∧ t.dec.count.toNat + 62 ≤ t.dec.total.toNat := by decide

/-- One pixel too many, with the longest run and with the shortest that can overrun. -/
theorem witness_RunPastTheCountIsAnError :
    let s := chunkAt ⟨7, 7, 7, 255⟩ 0 61 []
    let t := chunkAt ⟨7, 7, 7, 255⟩ 0 1 []
    (s.dec.phase = .chunks ∧ s.dec.count < s.dec.total ∧ 1 ≤ 62 ∧ 62 ≤ 62 ∧ s.dec.total.toNat < s.dec.count.toNat + 62)
      ∧ t.dec.phase = .chunks ∧ t.dec.count < t.dec.total ∧ 1 ≤ 2 ∧ 2 ≤ 62
        ∧ t.dec.total.toNat < t.dec.count.toNat + 2 := by decide

/-- A unit of each position in a state that does not enable it. -/
theorem witness_DisabledUnitIsRefused :
    enabledAt (Instr.header 1 1 4 0).position (chunkAt ⟨0, 0, 0, 255⟩ 0 1 []).dec = false
      ∧ enabledAt (Instr.run 1).position (chunkAt ⟨0, 0, 0, 255⟩ 1 1 []).dec = false
      ∧ enabledAt (Instr.rgb 1 2 3).position State.reset.dec = false
      ∧ enabledAt Instr.trailer.position (chunkAt ⟨0, 0, 0, 255⟩ 0 1 []).dec = false := by decide

/-- A unit of each clause: header, trailer, INDEX, RUN, and one that writes the cache. -/
theorem witness_UnitsLeaveTheRestAlone :
    (∃ t, exec (.header 1 1 4 0) (headerAt [] false) = .next t)
      ∧ (∃ t, exec .trailer (chunkAt ⟨0, 0, 0, 255⟩ 1 1 []) = .next t)
      ∧ (∃ t, exec (.index 5) (chunkAt ⟨0, 0, 0, 255⟩ 0 1 []) = .next t ∧ writesCache (.index 5) = false)
      ∧ (∃ t, exec (.run 1) (chunkAt ⟨0, 0, 0, 255⟩ 0 1 []) = .next t ∧ unitKind (.run 1) = some .run)
      ∧ ∃ t, exec (.rgb 1 2 3) (chunkAt ⟨0, 0, 0, 255⟩ 0 1 []) = .next t ∧ writesCache (.rgb 1 2 3) = true
          ∧ (0 : Slot) ≠ indexOf t.dec.prev :=
  ⟨⟨_, rfl⟩, ⟨_, rfl⟩, ⟨_, rfl, rfl⟩, ⟨_, rfl, rfl⟩, _, rfl, rfl, by decide⟩

theorem witness_CountFollowsThePixels :
    (∃ t, (Instr.run 62).position = .chunk ∧ exec (.run 62) (chunkAt ⟨0, 0, 0, 255⟩ 0 62 []) = .next t
        ∧ t.dec.phase ≠ .error)
      ∧ ∃ t, (Instr.index 5).position = .chunk ∧ exec (.index 5) (chunkAt ⟨0, 0, 0, 255⟩ 0 1 []) = .next t
        ∧ t.dec.phase ≠ .error :=
  ⟨⟨_, rfl, rfl, by decide⟩, _, rfl, rfl, by decide⟩

/-- No tag byte; RGBA one byte short; LUMA without its second byte. -/
theorem witness_TruncatedChunkIsAnError :
    let s := { chunkAt ⟨0, 0, 0, 255⟩ 0 1 [] with binEnd := true }
    (s.agenda = .turn .dec :: [] ∧ s.dec.phase = .chunks ∧ s.dec.count < s.dec.total ∧ s.binEnd = true ∧ s.bin = [])
      ∧ ([1, 2, 3] : List Byte).length + 1 < chunkLength (tagKind 0xFF)
      ∧ ([] : List Byte).length + 1 < chunkLength (tagKind 0xBF) := by decide

theorem witness_WaitingChangesNothing :
    let e := { pixelAt ⟨0, 0, 0, 255⟩ 0 1 2 ⟨0, 0, 0, 0⟩ with pin := [] }
    let c := chunkAt ⟨0, 0, 0, 255⟩ 0 1 [0xFE, 1, 2]
    let h := headerAt [0x71, 0x6F, 0x69] false
    let t := chunkAt ⟨0, 0, 0, 255⟩ 1 1 [0, 0, 0, 0, 0, 0, 0]
    (e.agenda = .turn .enc :: [] ∧ e.enc.phase = .pixels ∧ e.enc.pos < e.enc.total ∧ e.pin = [])
      ∧ (c.agenda = .turn .dec :: [] ∧ enabledAt .chunk c.dec = true ∧ c.binEnd = false
        ∧ decode .chunk c.bin = .error .short)
      ∧ (h.agenda = .turn .dec :: [] ∧ enabledAt .header h.dec = true ∧ h.binEnd = false
        ∧ decode .header h.bin = .error .short)
      ∧ t.agenda = .turn .dec :: [] ∧ enabledAt .trailer t.dec = true ∧ t.binEnd = false
        ∧ decode .trailer t.bin = .error .short := by decide

/-- In a call before `bin_end`; after a call with `bin_end` still high (R262: they are not taken); Pixels. -/
theorem witness_PresentingLengthensTheInput :
    let c := { headerAt [0x71] false with agenda := [.bytes [0x6F]] }
    let r := { chunkAt ⟨0, 0, 0, 255⟩ 1 1 [0x12] with
      dec := { Dec.reset with phase := .done }, binEnd := true, agenda := [.bytes [0x34]] }
    (c.agenda = .bytes [0x6F] :: [] ∧ c.binEnd = false) ∧ (r.agenda = .bytes [0x34] :: [] ∧ r.dec.phase = .done)
      ∧ (after (step r)).map (fun t => (t.bin, t.binEnd)) = some ([0x12, 0x34], true)
      ∧ (about (.pixels [⟨1, 2, 3, 4⟩])).agenda = .pixels [⟨1, 2, 3, 4⟩] :: [] := by decide

theorem witness_ContextAtRestDoesNothing :
    ((about (.turn .enc)).agenda = .turn .enc :: [] ∧ (about (.turn .enc)).enc.phase = .idle)
      ∧ ((about (.turn .dec)).agenda = .turn .dec :: [] ∧ (about (.turn .dec)).dec.phase = .idle)
      ∧ ({ Enc.reset with phase := .done }).phase = .done ∧ ({ Dec.reset with phase := .error }).phase = .error := by
  decide

/-- A step that raises an error in DEC, and one that raises ENC's. -/
theorem witness_ErrorsArePrecise :
    (∃ t, step (chunkAt ⟨0, 0, 0, 255⟩ 0 1 [0xC1]) = .next t
        ∧ (chunkAt ⟨0, 0, 0, 255⟩ 0 1 [0xC1]).dec.phase ≠ .error ∧ t.dec.phase = .error)
      ∧ ∃ t, step (about (.encStart 1 1 5 0)) = .next t ∧ (about (.encStart 1 1 5 0)).enc.phase ≠ .error
        ∧ t.enc.phase = .error :=
  ⟨⟨_, rfl, by decide, by decide⟩, _, rfl, by decide, by decide⟩

/-- Out of ERROR by each start. -/
theorem witness_OnlyStartOrResetLeavesError :
    (∃ t, step { about .decStart with dec := { Dec.reset with phase := .error, err := .format } } = .next t
        ∧ t.dec.phase ≠ .error)
      ∧ ∃ t, step { about (.encStart 1 1 4 0) with enc := { Enc.reset with phase := .error } } = .next t
        ∧ t.enc.phase ≠ .error :=
  ⟨⟨_, rfl, by decide⟩, _, rfl, by decide⟩

/-- A step that changes ENC's phase, and one that changes DEC's. -/
theorem witness_PhasesChangeOnlyAsListed :
    (∃ t, step (pixelAt ⟨0, 0, 0, 255⟩ 0 1 1 ⟨0, 0, 0, 0⟩) = .next t ∧ t.enc.phase = .done)
      ∧ ∃ t, step (headerAt (encode (.header 1 1 4 0)) false) = .next t ∧ t.dec.phase = .chunks :=
  ⟨⟨_, rfl, by decide⟩, _, rfl, by decide⟩

/-- A step that raises each error, TruncatedInputError in each place and at the edges, and one that clears each `err`. -/
theorem witness_ErrorsHaveTheListedCauses :
    (∃ t, step (about (.encStart 1 1 2 0)) = .next t ∧ t.enc.err = .unsupportedChannel)
      ∧ (∃ t, step { about (.encStart 1 1 4 0) with
            enc := { Enc.reset with phase := .error, err := .unsupportedChannel } } = .next t ∧ t.enc.err = .none)
      ∧ (∃ t, step { about .decStart with dec := { Dec.reset with phase := .error, err := .format } } = .next t
          ∧ t.dec.err = .none)
      ∧ (∃ t, step (headerAt [0x71, 0x6F, 0x69, 0x67] false) = .next t ∧ t.dec.err = .format)
      ∧ (∃ t, step (headerAt [1, 2, 3] true) = .next t ∧ t.dec.err = .truncated)
      ∧ (∃ t, step (headerAt [0x71, 0x6F, 0x69, 0x66, 0, 0, 0, 0, 0, 0, 0, 0, 0] true) = .next t
          ∧ t.dec.err = .truncated)
      ∧ (∃ t, step { chunkAt ⟨0, 0, 0, 255⟩ 0 1 [0xFF, 1, 2, 3] with binEnd := true } = .next t
          ∧ t.dec.err = .truncated)
      ∧ (∃ t, step { chunkAt ⟨0, 0, 0, 255⟩ 1 1 [0, 0, 0, 0, 0, 0, 0] with binEnd := true } = .next t
          ∧ t.dec.err = .truncated)
      ∧ (∃ t, step (headerAt (encode (.header 1 1 0 0)) true) = .next t ∧ t.dec.err = .unsupportedChannel)
      ∧ ∃ t, step (chunkAt ⟨0, 0, 0, 255⟩ 0 61 [0xFD]) = .next t ∧ t.dec.err = .runOverrun :=
  ⟨⟨_, rfl, by decide⟩, ⟨_, rfl, by decide⟩, ⟨_, rfl, by decide⟩, ⟨_, rfl, by decide⟩, ⟨_, rfl, by decide⟩,
    ⟨_, rfl, by decide⟩, ⟨_, rfl, by decide⟩, ⟨_, rfl, by decide⟩, ⟨_, rfl, by decide⟩, _, rfl, by decide⟩

/-- The longest pending run, and the last pixel of an image. -/
theorem witness_EncPixelFollowsR151 :
    let s := pixelAt ⟨7, 7, 7, 255⟩ 61 61 99 ⟨7, 7, 7, 255⟩
    let t := pixelAt ⟨7, 7, 7, 255⟩ 3 8 9 ⟨1, 2, 3, 4⟩
    (s.agenda = .turn .enc :: [] ∧ s.enc.phase = .pixels ∧ s.enc.pos < s.enc.total ∧ s.enc.run.toNat ≤ 61
        ∧ s.pin = ⟨7, 7, 7, 255⟩ :: [])
      ∧ t.agenda = .turn .enc :: [] ∧ t.enc.phase = .pixels ∧ t.enc.pos < t.enc.total ∧ t.enc.run.toNat ≤ 61
        ∧ t.pin = ⟨1, 2, 3, 4⟩ :: [] := by decide

theorem witness_EncoderEmitsAtMostSixBytes :
    encPixelUnits (pixelAt ⟨7, 7, 7, 255⟩ 3 8 9 ⟨1, 2, 3, 4⟩).enc ⟨1, 2, 3, 4⟩ = [.run 3, .rgba 1 2 3 4] := by decide

theorem witness_EncoderUnitsAreWellFormed :
    (pixelAt ⟨7, 7, 7, 255⟩ 61 61 99 ⟨7, 7, 7, 255⟩).enc.run.toNat ≤ 61
      ∧ Instr.run 62 ∈ encPixelUnits (pixelAt ⟨7, 7, 7, 255⟩ 61 61 99 ⟨7, 7, 7, 255⟩).enc ⟨7, 7, 7, 255⟩ := by decide

/-- Three channels and four; a unit of each kind among those emitted. -/
theorem witness_EncoderIsCanonical :
    let e := (pixelAt ⟨100, 100, 100, 255⟩ 0 0 9 ⟨0, 0, 0, 0⟩).enc
    (opaqueWhenThree e ∧ opaqueWhenThree { e with channels := 3 })
      ∧ encPixelUnits e ⟨102, 100, 100, 255⟩ = [.luma 0 2 0] ∧ encPixelUnits e ⟨101, 100, 100, 255⟩ = [.diff 1 0 0]
      ∧ encPixelUnits e ⟨0, 0, 0, 0⟩ = [.index 0] ∧ encPixelUnits e ⟨132, 132, 132, 255⟩ = [.rgb 132 132 132]
      ∧ encPixelUnits e ⟨1, 2, 3, 4⟩ = [.rgba 1 2 3 4] := by decide

/-- T-ENC-8: 124 opaque black pixels begin with two full runs; here from run 61, so that two pixels show the pair. -/
theorem witness_RunsFollowOnlyFullRuns :
    let e := (pixelAt ⟨7, 7, 7, 255⟩ 61 61 63 ⟨7, 7, 7, 255⟩).enc
    let ps : List Pixel := [⟨7, 7, 7, 255⟩, ⟨7, 7, 7, 255⟩]
    e.pos.toNat + ps.length ≤ e.total.toNat ∧ unitsOfPixels e ps = [] ++ .run 62 :: .run 1 :: [] := by decide

/-- T-FIT-1, T-FIT-2, T-FIT-3 and T-FIT-7: both ends of the DIFF range, a LUMA and an RGB. -/
theorem witness_DeltaUnitIsChosenByRange :
    [deltaUnit ⟨10, 10, 10, 255⟩ ⟨8, 8, 8, 255⟩, deltaUnit ⟨10, 10, 10, 255⟩ ⟨11, 11, 11, 255⟩,
        deltaUnit ⟨10, 10, 10, 255⟩ ⟨12, 10, 10, 255⟩, deltaUnit ⟨100, 100, 100, 255⟩ ⟨132, 132, 132, 255⟩] =
      [.diff (-2) (-2) (-2), .diff 1 1 1, .luma 0 2 0, .rgb 132 132 132] := by decide

theorem witness_SecondDifferencesMayWrap :
    (-128 : Int) ≤ -128 ∧ (-128 : Int) ≤ 127 ∧ (127 : Int) ≤ 127 ∧ (-32 : Int) ≤ 127 := by decide

/-- By the agenda, and by the contexts' own alternation. -/
theorem witness_StepRunsTheDecodedUnit :
    let s := chunkAt ⟨0, 0, 0, 255⟩ 0 1 [0xC0, 5]
    let t := { chunkAt ⟨0, 0, 0, 255⟩ 0 1 [0xC0, 5] with agenda := [], turn := .dec }
    (s.agenda = .turn .dec :: [] ∧ enabledAt .chunk s.dec = true ∧ decode .chunk s.bin = .ok (.run 1, [5]))
      ∧ t.agenda = [] ∧ t.turn = .dec ∧ enabledAt .chunk t.dec = true ∧ decode .chunk t.bin = .ok (.run 1, [5]) := by
  decide

/-- Each of the refused moves, refused. -/
theorem witness_StepStopsOnlyOnForeignMoves :
    refusal (step { headerAt [] true with agenda := [.bytes [1]] }) = some .bytesAfterEnd
      ∧ refusal (step { headerAt [] false with agenda := [.dropBytes] }) = some .withdrawnInCall
      ∧ refusal (step { pixelAt ⟨0, 0, 0, 255⟩ 0 0 1 ⟨0, 0, 0, 0⟩ with agenda := [.dropPixels] }) =
        some .withdrawnInCall := by decide

theorem witness_ContextsDoNotTouchEachOther :
    (∃ t, (about (.encStart 1 1 4 0)).agenda = .encStart 1 1 4 0 :: [] ∧ moveSide (.encStart 1 1 4 0) = some .enc
        ∧ step (about (.encStart 1 1 4 0)) = .next t)
      ∧ ∃ t, (about .decStart).agenda = .decStart :: [] ∧ moveSide .decStart = some .dec
        ∧ step (about .decStart) = .next t :=
  ⟨⟨_, rfl, rfl, rfl⟩, _, rfl, rfl, rfl⟩

/-- Two states that agree on ENC and PIN and differ in DEC. -/
theorem witness_EncoderReadsNothingOfTheDecoder :
    ∃ s', moveSide (.turn .enc) = some .enc
      ∧ (pixelAt ⟨0, 0, 0, 255⟩ 0 0 1 ⟨1, 2, 3, 4⟩).agenda = .turn .enc :: []
      ∧ ({ pixelAt ⟨0, 0, 0, 255⟩ 0 0 1 ⟨1, 2, 3, 4⟩ with dec := { Dec.reset with count := 5 } }).enc =
        (pixelAt ⟨0, 0, 0, 255⟩ 0 0 1 ⟨1, 2, 3, 4⟩).enc
      ∧ step (pixelAt ⟨0, 0, 0, 255⟩ 0 0 1 ⟨1, 2, 3, 4⟩) = .next s' :=
  ⟨_, rfl, rfl, rfl, rfl⟩

/-- Two states that agree on DEC, BIN and `bin_end` and differ in ENC. -/
theorem witness_DecoderReadsNothingOfTheEncoder :
    ∃ s', moveSide (.turn .dec) = some .dec
      ∧ (chunkAt ⟨0, 0, 0, 255⟩ 0 1 [0xC0]).agenda = .turn .dec :: []
      ∧ ({ chunkAt ⟨0, 0, 0, 255⟩ 0 1 [0xC0] with enc := { Enc.reset with pos := 5 } }).dec =
        (chunkAt ⟨0, 0, 0, 255⟩ 0 1 [0xC0]).dec
      ∧ step (chunkAt ⟨0, 0, 0, 255⟩ 0 1 [0xC0]) = .next s' :=
  ⟨_, rfl, rfl, rfl, rfl⟩

/-- A move of each side, and a state in which both can be made. -/
theorem witness_InterleavingIsUnobservable :
    ∃ t, moveSide (.encStart 1 1 4 0) = some .enc ∧ moveSide .decStart = some .dec
      ∧ Host.Core.run core 2 { State.reset with agenda := [.encStart 1 1 4 0, .decStart] } = .next t :=
  ⟨_, rfl, rfl, rfl⟩

/-- Steps that take from a stream, that add to one, and that put out. -/
theorem witness_StreamsKeepTheirOrder :
    (∃ t, step (pixelAt ⟨0, 0, 0, 255⟩ 0 0 1 ⟨1, 2, 3, 4⟩) = .next t ∧ t.pin = [])
      ∧ ∃ t, step (about (.bytes [1, 2])) = .next t ∧ t.bin = [1, 2] :=
  ⟨⟨_, rfl, by decide⟩, _, rfl, by decide⟩

/-- A state in the middle of a decode call meets both invariants, and steps. -/
theorem witness_StepKeepsTheInvariants :
    machineInv (chunkAt ⟨7, 7, 7, 255⟩ 3 9 [0xC5]) ∧ ∃ t, step (chunkAt ⟨7, 7, 7, 255⟩ 3 9 [0xC5]) = .next t :=
  ⟨by decide, _, rfl⟩

/-- So does one in the middle of an encode call, with a run pending. -/
theorem witness_StepKeepsTheCallInvariant :
    callInv (pixelAt ⟨7, 7, 7, 255⟩ 61 61 99 ⟨7, 7, 7, 255⟩)
      ∧ ∃ t, step (pixelAt ⟨7, 7, 7, 255⟩ 61 61 99 ⟨7, 7, 7, 255⟩) = .next t :=
  ⟨by decide, _, rfl⟩

theorem witness_ReachableStatesMeetR37 : Reachable State.reset := .start []

/-- Two contexts in lockstep, ENC with a run pending and the last pixel to come. -/
theorem witness_OnePixelKeepsLockstep :
    let e := (pixelAt ⟨7, 7, 7, 255⟩ 3 8 9 ⟨1, 2, 3, 4⟩).enc
    let d := (chunkAt ⟨7, 7, 7, 255⟩ 5 9 []).dec
    inLockstep e d ∧ e.run.toNat ≤ 61 ∧ e.pos < e.total := by decide

/-- T-ENC-1: the 1 x 1 opaque black image and its stream. -/
theorem witness_DecodeOfEncodeGivesTheImageBack :
    let s := { State.reset with agenda := encodeCall 1 1 4 0 [⟨0, 0, 0, 255⟩] }
    ((4 : Byte) = 3 ∨ (4 : Byte) = 4) ∧ [(⟨0, 0, 0, 255⟩ : Pixel)].length = (1 : Dim).toNat * (1 : Dim).toNat
      ∧ encBusy s.enc = false ∧ s.pin = [] ∧ decBusy s.dec = false ∧ s.bin = []
      ∧ ∃ s', Host.Core.run core 4 s = .next s' ∧ encodeResult s s' =
          .finished [0x71, 0x6F, 0x69, 0x66, 0, 0, 0, 1, 0, 0, 0, 1, 4, 0, 0xC0, 0, 0, 0, 0, 0, 0, 0, 1] :=
  ⟨by decide, by decide, by decide, by decide, by decide, by decide, _, rfl, by decide⟩

end Sys2Proof.Machine.Tests
end

section
/-! PROOFS. The two contexts share nothing (spec/10_state.md R20): a move of one side is a function of that side
alone. -/

namespace Sys2Proof.Machine

open Sys2Proof

/-! ## The two sides of a state -/

/-- ENC's side of a state: the context and its input; everything else is as at reset. -/
def encSide (s : State) : State := { State.reset with enc := s.enc, pin := s.pin }

/-- DEC's side of a state: the context, its input and the level `bin_end`; everything else is as at reset. -/
def decSide (s : State) : State := { State.reset with dec := s.dec, bin := s.bin, binEnd := s.binEnd }

/-- `s` with ENC's side as in `t`, and what `t` holds on BOUT appended. -/
def joinEnc (s t : State) : State := { s with enc := t.enc, pin := t.pin, bout := s.bout ++ t.bout }

/-- `s` with DEC's side as in `t`, and what `t` holds on POUT appended. -/
def joinDec (s t : State) : State :=
  { s with dec := t.dec, bin := t.bin, binEnd := t.binEnd, pout := s.pout ++ t.pout }

@[simp] theorem encSide_enc (s : State) : (encSide s).enc = s.enc := rfl
@[simp] theorem encSide_pin (s : State) : (encSide s).pin = s.pin := rfl
@[simp] theorem decSide_dec (s : State) : (decSide s).dec = s.dec := rfl
@[simp] theorem decSide_bin (s : State) : (decSide s).bin = s.bin := rfl
@[simp] theorem decSide_binEnd (s : State) : (decSide s).binEnd = s.binEnd := rfl

@[simp] theorem joinEnc_encSide (s : State) : joinEnc s (encSide s) = s := by
  simp [joinEnc, encSide, State.reset]

@[simp] theorem joinDec_decSide (s : State) : joinDec s (decSide s) = s := by
  simp [joinDec, decSide, State.reset]

@[simp] theorem joinDec_withDec (s : State) (d : Dec) : joinDec s (withDec d (decSide s)) = withDec d s := by
  simp [joinDec, withDec, decSide, State.reset]

@[simp] theorem joinDec_deliver (s : State) (n : Nat) (p : Pixel) (d : Dec) :
    joinDec s (deliver n p (withDec d (decSide s))) = deliver n p (withDec d s) := rfl

/-! ## Outcomes -/

/-- `f` applied to a next state; a stop stays as it is. -/
def mapNext (f : State → State) : Host.Outcome State Fault Refusal → Host.Outcome State Fault Refusal
  | .next t => .next (f t)
  | .fault r => .fault r
  | .refused r => .refused r

@[simp] theorem mapNext_next (f : State → State) (t : State) : mapNext f (.next t) = .next (f t) := rfl
@[simp] theorem mapNext_refused (f : State → State) (r : Refusal) : mapNext f (.refused r) = .refused r := rfl

theorem mapNext_eq_next {f : State → State} {o : Host.Outcome State Fault Refusal} {t : State} :
    mapNext f o = .next t ↔ ∃ v, o = .next v ∧ f v = t := by
  cases o <;> simp [mapNext]

@[simp] theorem mapNext_whenEnabled (f : State → State) (b : Bool) (t : State) :
    mapNext f (whenEnabled b t) = whenEnabled b (f t) := by
  cases b <;> rfl

/-! ## ENC's moves -/

theorem encStart_eq_join (w h : Dim) (c sp : Byte) (s : State) :
    encStart w h c sp s = joinEnc s (encStart w h c sp (encSide s)) := by
  unfold encStart
  by_cases hb : encBusy s.enc = true
  · simp [hb]
  · by_cases hc : Config.legalChannels c = true <;>
      simp [hb, hc, joinEnc, encSide, withEnc, emitBytes, State.reset]

theorem encTurn_eq_join (s : State) : encTurn s = joinEnc s (encTurn (encSide s)) := by
  unfold encTurn
  by_cases hp : encPixelEnabled s.enc = true
  · cases hq : s.pin with
    | nil => simp [hp, encTake, hq]
    | cons q rest => simp [hp, encTake, hq]; rfl
  · by_cases hf : encFinishEnabled s.enc = true
    · simp [hp, hf]; rfl
    · simp [hp, hf]

/-- The moves of ENC's side. -/
theorem moveSide_enc_cases {m : Move} (h : moveSide m = some .enc) :
    (∃ w hh c sp, m = .encStart w hh c sp) ∨ (∃ ps, m = .pixels ps) ∨ m = .dropPixels ∨ m = .turn .enc := by
  cases m <;> simp_all [moveSide]

/-- A move of ENC's side is what it is on ENC's side alone, put into the state. -/
theorem performMove_encSide {m : Move} (h : moveSide m = some .enc) (s : State) :
    performMove m s = mapNext (joinEnc s) (performMove m (encSide s)) := by
  obtain ⟨w, hh, c, sp, rfl⟩ | ⟨ps, rfl⟩ | rfl | rfl := moveSide_enc_cases h
  · exact congrArg Host.Outcome.next (encStart_eq_join w hh c sp s)
  · simp [performMove, presentPixels, joinEnc, encSide, State.reset]
  · cases hb : encBusy s.enc <;>
      simp [performMove, withdrawPixels, hb, leavePixels, joinEnc, encSide, State.reset]
  · exact congrArg Host.Outcome.next (encTurn_eq_join s)

/-! ## DEC's moves -/

theorem decStart_eq_join (s : State) : decStart s = joinDec s (decStart (decSide s)) := by
  cases hb : decBusy s.dec <;> simp [decStart, hb]
  simp [joinDec, withDec, decSide, State.reset]

theorem postUpdate_eq_join (p : Pixel) (s : State) : joinDec s (postUpdate p (decSide s)) = postUpdate p s := rfl

theorem exec_eq_join (i : Instr) (s : State) : exec i s = mapNext (joinDec s) (exec i (decSide s)) := by
  cases i with
  | header w h c sp => cases hc : Config.legalChannels c <;> simp [exec, execHeader, hc]
  | index idx => simp [exec, execIndex, setPrev_eq]
  | diff dr dg db => simp [exec, execDiff, postUpdate_eq_join]
  | luma dg drg dbg => simp [exec, execLuma, postUpdate_eq_join]
  | run n =>
    by_cases hn : s.dec.total.toNat < s.dec.count.toNat + n
    · simp [exec, execRun, hn]
    · simp only [exec, execRun, decSide_dec, mapNext_whenEnabled, hn, if_false]; rfl
  | rgb r g b => simp [exec, execRgb, postUpdate_eq_join]
  | rgba r g b a => simp [exec, execRgba, postUpdate_eq_join]
  | trailer => simp [exec, execTrailer]

theorem decShort_eq_join (s : State) : decShort s = joinDec s (decShort (decSide s)) := by
  cases hb : s.binEnd <;> simp [decShort, hb]
  simp [joinDec, withDec, decSide, leaveBytes, State.reset]

theorem decBadMagic_eq_join (s : State) : decBadMagic s = joinDec s (decBadMagic (decSide s)) := by
  simp [decBadMagic, joinDec, withDec, decSide, leaveBytes, State.reset]

theorem decFetch_eq_join (pos : Position) (s : State) :
    decFetch pos s = mapNext (joinDec s) (decFetch pos (decSide s)) := by
  match h : decode pos s.bin with
  | .ok (i, rest) =>
    simp only [decFetch, decSide_bin, h]
    exact exec_eq_join i (leaveBytes rest s)
  | .error .short =>
    simp only [decFetch, decSide_bin, h, mapNext_next]
    rw [← decShort_eq_join]
  | .error .badMagic =>
    simp only [decFetch, decSide_bin, h, mapNext_next]
    rw [← decBadMagic_eq_join]

theorem decTurn_eq_join (s : State) : decTurn s = mapNext (joinDec s) (decTurn (decSide s)) := by
  cases h : decPosition s.dec with
  | none => simp [decTurn, h]
  | some pos => simpa [decTurn, h] using decFetch_eq_join pos s

/-- The moves of DEC's side. -/
theorem moveSide_dec_cases {m : Move} (h : moveSide m = some .dec) :
    m = .decStart ∨ (∃ bs, m = .bytes bs) ∨ m = .endBytes ∨ m = .dropBytes ∨ m = .turn .dec := by
  cases m <;> simp_all [moveSide]

/-- A move of DEC's side is what it is on DEC's side alone, put into the state. -/
theorem performMove_decSide {m : Move} (h : moveSide m = some .dec) (s : State) :
    performMove m s = mapNext (joinDec s) (performMove m (decSide s)) := by
  obtain rfl | ⟨bs, rfl⟩ | rfl | rfl | rfl := moveSide_dec_cases h
  · exact congrArg Host.Outcome.next (decStart_eq_join s)
  · cases he : s.binEnd <;> cases hb : decBusy s.dec <;>
      simp [performMove, presentBytes, he, hb, joinDec, decSide, State.reset]
  · simp [performMove, raiseBinEnd, joinDec, decSide, State.reset]
  · cases hb : decBusy s.dec <;>
      simp [performMove, withdrawBytes, hb, leaveBytes, joinDec, decSide, State.reset]
  · exact decTurn_eq_join s

/-! ## Moves of either side -/

/-- The side of a context. -/
def side : Context → State → State
  | .enc => encSide
  | .dec => decSide

/-- `s` with the side of a context as in `t`, and its output appended. -/
def join : Context → State → State → State
  | .enc => joinEnc
  | .dec => joinDec

variable {c c' : Context} {a b m : Move} {s t : State} {rest : List Move}

theorem join_agenda (v : State) : (join c s v).agenda = s.agenda := by
  cases c <;> rfl

theorem join_withAgenda (v : State) : { join c s v with agenda := rest } = join c { s with agenda := rest } v := by
  cases c <;> rfl

/-- The agenda is on no side. -/
theorem side_withAgenda (s : State) (rest : List Move) : side c { s with agenda := rest } = side c s := by
  cases c <;> rfl

/-- What is put into one side is not seen on the other. -/
theorem side_join_other (hc : c ≠ c') (v : State) : side c' (join c s v) = side c' s :=
  match c, c', hc with
  | .enc, .dec, _ => rfl
  | .dec, .enc, _ => rfl
  | .enc, .enc, h => absurd rfl h
  | .dec, .dec, h => absurd rfl h

/-- What a move of a side gives, when it gives a next state: its result on that side alone, put into the state. -/
theorem performMove_next_iff (h : moveSide m = some c) :
    performMove m s = .next t ↔ ∃ v, performMove m (side c s) = .next v ∧ join c s v = t := by
  cases c with
  | enc => rw [performMove_encSide h, mapNext_eq_next]; rfl
  | dec => rw [performMove_decSide h, mapNext_eq_next]; rfl

/-- What a step gives, when it makes a move of a side: the same. -/
theorem step_next_iff (hm : moveSide m = some c) (hs : s.agenda = m :: rest) :
    step s = .next t ↔ ∃ v, performMove m (side c s) = .next v ∧ join c { s with agenda := rest } v = t := by
  rw [step_of_agenda hs, performMove_next_iff hm, side_withAgenda s]

/-- A run of one step is that step. -/
theorem run_one_iff : Host.Core.run core 1 s = .next t ↔ step s = .next t := by
  rw [run_succ_iff]
  constructor
  · rintro ⟨u, hu, ht⟩
    cases ht
    exact hu
  · exact fun h => ⟨t, h, rfl⟩

/-- Two moves of different sides, one after the other: both are made on their own side, and the two results are put
together. -/
theorem run_two_sides (hc : c ≠ c') (ha : moveSide a = some c) (hb : moveSide b = some c') :
    Host.Core.run core 2 { s with agenda := a :: b :: rest } = .next t ↔
      ∃ v w, performMove a (side c s) = .next v ∧ performMove b (side c' s) = .next w
        ∧ join c' (join c { s with agenda := rest } v) w = t := by
  have hfirst (u : State) : step { s with agenda := a :: b :: rest } = .next u ↔
      ∃ v, performMove a (side c s) = .next v ∧ join c { s with agenda := b :: rest } v = u := by
    rw [step_next_iff ha rfl, side_withAgenda s]
  have hsecond (v : State) : step (join c { s with agenda := b :: rest } v) = .next t ↔
      ∃ w, performMove b (side c' s) = .next w ∧ join c' (join c { s with agenda := rest } v) w = t := by
    rw [step_next_iff hb (join_agenda v), join_withAgenda, side_join_other hc, side_withAgenda s]
  simp only [run_succ_iff (k := 1), run_one_iff, hfirst]
  constructor
  · rintro ⟨_, ⟨v, hv, rfl⟩, hstep⟩
    obtain ⟨w, hw, ht⟩ := (hsecond v).1 hstep
    exact ⟨v, w, hv, hw, ht⟩
  · rintro ⟨v, w, hv, hw, ht⟩
    exact ⟨_, ⟨v, hv, rfl⟩, (hsecond v).2 ⟨w, hw, ht⟩⟩

/-- From two states that agree on a side, a move of that side leaves the same on it and puts out the same. -/
theorem step_of_same_side {u : State} {rest' : List Move} (hm : moveSide m = some c) (hs : s.agenda = m :: rest)
    (hu : u.agenda = m :: rest') (hside : side c s = side c u) (hstep : step s = .next t) :
    ∃ v, t = join c { s with agenda := rest } v ∧ step u = .next (join c { u with agenda := rest' } v) := by
  obtain ⟨v, hv, rfl⟩ := (step_next_iff hm hs).1 hstep
  rw [hside] at hv
  exact ⟨v, rfl, (step_next_iff hm hu).2 ⟨v, hv, rfl⟩⟩

/-- Settles O45: a move of one side is made on that side alone. -/
theorem contextsDoNotTouchEachOther : Obligations.ContextsDoNotTouchEachOther := by
  intro s t m rest hs hstep
  constructor <;> intro hm
  · obtain ⟨v, -, rfl⟩ := (step_next_iff hm hs).1 hstep
    exact ⟨rfl, rfl, rfl, rfl⟩
  · obtain ⟨v, -, rfl⟩ := (step_next_iff hm hs).1 hstep
    exact ⟨rfl, rfl, rfl⟩

/-- Settles O46: ENC and PIN are ENC's side, and the move is made on it. -/
theorem encoderReadsNothingOfTheDecoder : Obligations.EncoderReadsNothingOfTheDecoder := by
  intro s u s' m rest rest' hm hs hu henc hpin hstep
  have hside : encSide s = encSide u := by rw [encSide, encSide, henc, hpin]
  obtain ⟨v, rfl, hu'⟩ := step_of_same_side hm hs hu hside hstep
  exact ⟨_, v.bout, hu', rfl, rfl, rfl, rfl⟩

/-- Settles O47: DEC, BIN and `bin_end` are DEC's side, and the move is made on it. -/
theorem decoderReadsNothingOfTheEncoder : Obligations.DecoderReadsNothingOfTheEncoder := by
  intro s u s' m rest rest' hm hs hu hdec hbin hend hstep
  have hside : decSide s = decSide u := by rw [decSide, decSide, hdec, hbin, hend]
  obtain ⟨v, rfl, hu'⟩ := step_of_same_side hm hs hu hside hstep
  exact ⟨_, v.pout, hu', rfl, rfl, rfl, rfl, rfl⟩

/-- Settles O48: in either order each move is made on its own side, and the two results are put together. -/
theorem interleavingIsUnobservable : Obligations.InterleavingIsUnobservable := by
  intro s t a b rest ha hb
  rw [run_two_sides (c := .enc) (c' := .dec) (by decide) ha hb, run_two_sides (by decide) hb ha]
  constructor
  · rintro ⟨v, w, hv, hw, rfl⟩
    exact ⟨w, v, hw, hv, rfl⟩
  · rintro ⟨w, v, hw, hv, rfl⟩
    exact ⟨v, w, hv, hw, rfl⟩

end Sys2Proof.Machine
end

section
/-! PROOFS. What a step can leave in each context, and in which phase: the table of transitions of spec/10_state.md R30,
the starts of spec/40_header_trailer.md, and the pixels a chunk stands for. -/

namespace Sys2Proof.Machine

open Sys2Proof

/-! ## The starts -/

theorem encBusy_eq_false_iff (e : Enc) : encBusy e = false ↔ e.phase = .idle ∨ e.phase = .done ∨ e.phase = .error := by
  cases h : e.phase <;> simp [encBusy, h]

theorem decBusy_eq_false_iff (d : Dec) : decBusy d = false ↔ d.phase = .idle ∨ d.phase = .done ∨ d.phase = .error := by
  cases h : d.phase <;> simp [decBusy, h]

/-- ENC as an accepted `EncStart` leaves it: the operands, and all else at its call-initial value (R33, R110). -/
def encStarted (w h : Dim) (c sp : Byte) : Enc :=
  { encLatched w h c sp Enc.reset with
    phase := if Config.legalChannels c then .pixels else .error
    err := if Config.legalChannels c then .none else .unsupportedChannel }

/-- DEC as an accepted `DecStart` leaves it: every register at its call-initial value (R33, R111). -/
def decStarted : Dec := { Dec.reset with phase := .header }

theorem encStart_enc (w h : Dim) (c sp : Byte) (s : State) :
    (encStart w h c sp s).enc = if encBusy s.enc then s.enc else encStarted w h c sp := by
  unfold encStart encStarted
  cases encBusy s.enc <;> cases Config.legalChannels c <;> rfl

theorem decStart_dec (s : State) : (decStart s).dec = if decBusy s.dec then s.dec else decStarted := by
  unfold decStart
  cases decBusy s.dec <;> rfl

/-- Settles O10: an accepted start leaves `encStarted` and `decStarted`, whatever was there. -/
theorem startForgetsEarlierCalls : Obligations.StartForgetsEarlierCalls := by
  constructor
  · intro s u s' u' w h c sp rest rest' hs hu hsb hub hs' hu'
    rw [step_of_agenda hs] at hs'
    rw [step_of_agenda hu] at hu'
    cases hs'
    cases hu'
    simp [encStart_enc, hsb, hub]
  · intro s u s' u' rest rest' hs hu hsb hub hs' hu'
    rw [step_of_agenda hs] at hs'
    rw [step_of_agenda hu] at hu'
    cases hs'
    cases hu'
    simp [decStart_dec, hsb, hub]

/-! ## Reset -/

/-- Both contexts as after hardware reset are all the registers at their values of R32. -/
theorem resetValues_of_contexts {s : State} (he : s.enc = Enc.reset) (hd : s.dec = Dec.reset) : resetValues s := by
  simp [resetValues, he, hd, Enc.reset, Dec.reset, Pixel.opaqueBlack, Pixel.transparentBlack]

/-- Settles O6: the reset step puts both contexts at their reset values and touches nothing else. -/
theorem resetGivesEveryRegisterItsValue : Obligations.ResetGivesEveryRegisterItsValue := by
  refine ⟨resetValues_of_contexts rfl rfl, fun s rest hs => ?_⟩
  exact ⟨_, step_of_agenda hs, resetValues_of_contexts rfl rfl, rfl, rfl, rfl, rfl, rfl, rfl⟩

/-! ## A chunk -/

/-- A sum that a 64-bit count can hold is not wrapped. -/
theorem toNat_add_of_fits {count total : Count} {n : Nat} (h : count.toNat + n ≤ total.toNat) :
    (count + BitVec.ofNat 64 n).toNat = count.toNat + n := by
  have := total.isLt
  rw [BitVec.toNat_add, BitVec.toNat_ofNat, Nat.add_mod_mod, Nat.mod_eq_of_lt (by omega)]

theorem succ_toNat_le {count total : Count} (h : count < total) : count.toNat + 1 ≤ total.toNat := BitVec.lt_def.1 h

/-- The chunks that write the cache stand for one pixel (R26, R198). -/
theorem unitPixels_of_writesCache {i : Instr} (h : writesCache i = true) : unitPixels i = 1 := by
  cases i with
  | diff | luma | rgb | rgba => rfl
  | header | index | run | trailer => cases h

/-- Everything a chunk can do: overrun the image, or deliver the pixels it stands for, the last of them being `prev`
from then on, and stored or not. -/
theorem exec_chunk_cases {i : Instr} {s t : State} (hi : i.position = .chunk) (h : exec i s = .next t) :
    s.dec.phase = .chunks ∧ s.dec.count < s.dec.total
      ∧ (t = raise .dec .runOverrun s
        ∨ s.dec.count.toNat + unitPixels i ≤ s.dec.total.toNat
          ∧ ∃ cache p, (cache = s.dec.cache ∨ cache = writeSlot s.dec.cache (indexOf p) p)
            ∧ t = deliver (unitPixels i) p (withDec { s.dec with cache := cache, prev := p } s)) := by
  obtain ⟨w, hh, c, sp, rfl, -⟩ | ⟨w, hh, c, sp, rfl, -⟩ | ⟨hp, hlt, hw, p, rfl⟩ | ⟨hp, hlt, idx, rfl, rfl⟩
    | ⟨hp, hlt, n, rfl, hn, rfl⟩ | ⟨hp, hlt, n, rfl, -, rfl⟩ | ⟨-, -, rfl, -⟩ := exec_next_cases h
  · cases hi
  · cases hi
  · rw [unitPixels_of_writesCache hw]
    exact ⟨hp, hlt, .inr ⟨succ_toNat_le hlt, _, p, .inr rfl, rfl⟩⟩
  · exact ⟨hp, hlt, .inr ⟨succ_toNat_le hlt, _, _, .inl rfl, rfl⟩⟩
  · exact ⟨hp, hlt, .inr ⟨hn, _, s.dec.prev, .inl rfl, rfl⟩⟩
  · exact ⟨hp, hlt, .inl rfl⟩
  · cases hi

/-- Settles O26: but for the overrun, which is an error, a chunk delivers its pixels, and they fit. -/
theorem countFollowsThePixels : Obligations.CountFollowsThePixels := by
  intro i s t hi h hne
  obtain ⟨-, -, rfl | ⟨hfits, cache, p, -, rfl⟩⟩ := exec_chunk_cases hi h
  · exact absurd rfl hne
  · have hcount := toNat_add_of_fits hfits
    refine ⟨hcount, ?_, by simp⟩
    rw [BitVec.le_def]
    exact hcount.trans_le hfits

/-! ## Turns -/

/-- What a turn of ENC can leave in the context. -/
inductive EncTaken (e : Enc) : Enc → Prop
  | waited : EncTaken e e
  | coded (q : Pixel) (phase : e.phase = .pixels) (more : e.pos < e.total) :
      EncTaken e (encPixelState e (workingPixel e.channels q))
  | finished (phase : e.phase = .pixels) (all : e.pos = e.total) : EncTaken e { e with phase := .done }

theorem encTurn_taken (s : State) : EncTaken s.enc (encTurn s).enc := by
  obtain ⟨q, rest, -, henabled, hturn⟩ | ⟨henabled, hturn⟩ | hturn := encTurn_cases s <;> rw [hturn]
  · obtain ⟨hphase, hmore⟩ := (encPixelEnabled_iff _).1 henabled
    exact .coded q hphase hmore
  · obtain ⟨hphase, hall⟩ := (encFinishEnabled_iff _).1 henabled
    exact .finished hphase hall
  · exact .waited

/-- What a turn of DEC can leave in the context. -/
inductive DecTaken (d : Dec) : Dec → Prop
  | waited : DecTaken d d
  | headed (w h : Dim) (c sp : Byte) (phase : d.phase = .header) (legal : Config.legalChannels c = true) :
      DecTaken d (headerLatched w h c sp d)
  | delivered (n : Nat) (cache : Cache) (p : Pixel) (phase : d.phase = .chunks)
      (fits : d.count.toNat + n ≤ d.total.toNat)
      (stored : cache = d.cache ∨ cache = writeSlot d.cache (indexOf p) p) :
      DecTaken d { d with cache := cache, prev := p, count := d.count + BitVec.ofNat 64 n }
  | finished (phase : d.phase = .chunks) (all : d.count = d.total) : DecTaken d { d with phase := .done }
  | failed (code : ErrCode) (isError : code ≠ .none)
      (enabled : d.phase = .header ∨ d.phase = .chunks ∧ (d.count < d.total ∨ d.count = d.total)) :
      DecTaken d { d with err := code, phase := .error }

/-- A position to read at is a step enabled (R30). -/
theorem enabled_of_decPosition {d : Dec} {pos : Position} (h : decPosition d = some pos) :
    d.phase = .header ∨ d.phase = .chunks ∧ (d.count < d.total ∨ d.count = d.total) := by
  obtain ⟨hp, -⟩ | ⟨hp, hlt, -⟩ | ⟨hp, heq, -⟩ | ⟨-, -, hnone⟩ | ⟨-, -, hnone⟩ := decPosition_cases d
  · exact .inl hp
  · exact .inr ⟨hp, .inl hlt⟩
  · exact .inr ⟨hp, .inr heq⟩
  · simp [hnone] at h
  · simp [hnone] at h

theorem exec_taken {i : Instr} {s t : State} (h : exec i s = .next t) : DecTaken s.dec t.dec := by
  obtain ⟨w, hh, c, sp, -, hp, hc, rfl⟩ | ⟨w, hh, c, sp, -, hp, -, rfl⟩ | ⟨hp, hlt, -, p, rfl⟩ | ⟨hp, hlt, idx, -, rfl⟩
    | ⟨hp, -, n, -, hn, rfl⟩ | ⟨hp, hlt, n, -, -, rfl⟩ | ⟨hp, hall, -, rfl⟩ := exec_next_cases h
  · exact .headed w hh c sp hp hc
  · exact .failed _ (by decide) (.inl hp)
  · exact .delivered 1 _ p hp (succ_toNat_le hlt) (.inr rfl)
  · exact .delivered 1 _ _ hp (succ_toNat_le hlt) (.inl rfl)
  · exact .delivered n _ s.dec.prev hp hn (.inl rfl)
  · exact .failed _ (by decide) (.inr ⟨hp, .inl hlt⟩)
  · exact .finished hp hall

theorem decShort_taken {s : State} {pos : Position} (hpos : decPosition s.dec = some pos) :
    DecTaken s.dec (decShort s).dec := by
  unfold decShort
  split
  · exact .failed _ (by decide) (enabled_of_decPosition hpos)
  · exact .waited

theorem decTurn_taken {s t : State} (h : decTurn s = .next t) : DecTaken s.dec t.dec := by
  obtain ⟨-, hturn⟩ | ⟨pos, hpos, ⟨i, rest, -, hturn⟩ | ⟨-, hturn⟩ | ⟨-, hturn⟩⟩ := decTurn_cases s <;> rw [hturn] at h
  · cases h
    exact .waited
  · exact exec_taken (s := leaveBytes rest s) h
  · cases h
    exact decShort_taken hpos
  · cases h
    exact .failed _ (by decide) (enabled_of_decPosition hpos)

/-! ## What a move of one side leaves of the other context -/

theorem decStart_enc (s : State) : (decStart s).enc = s.enc := by
  rw [decStart_eq_join]
  rfl

theorem encStart_dec (w h : Dim) (c sp : Byte) (s : State) : (encStart w h c sp s).dec = s.dec := by
  rw [encStart_eq_join]
  rfl

theorem encTurn_dec (s : State) : (encTurn s).dec = s.dec := by
  rw [encTurn_eq_join]
  rfl

theorem decTurn_enc {s t : State} (h : decTurn s = .next t) : t.enc = s.enc := by
  rw [decTurn_eq_join, mapNext_eq_next] at h
  obtain ⟨v, -, rfl⟩ := h
  rfl

/-! ## Steps -/

/-- What a step can leave in ENC. -/
inductive EncChange (s : State) : Enc → Prop
  | kept : EncChange s s.enc
  | reset {rest : List Move} (move : s.agenda = .reset :: rest) : EncChange s Enc.reset
  | started {rest : List Move} (w h : Dim) (c sp : Byte) (move : s.agenda = .encStart w h c sp :: rest)
      (free : encBusy s.enc = false) : EncChange s (encStarted w h c sp)
  | taken {e : Enc} (move : takesTurn .enc s) (result : EncTaken s.enc e) : EncChange s e

/-- What a step can leave in DEC. -/
inductive DecChange (s : State) : Dec → Prop
  | kept : DecChange s s.dec
  | reset {rest : List Move} (move : s.agenda = .reset :: rest) : DecChange s Dec.reset
  | started {rest : List Move} (move : s.agenda = .decStart :: rest) (free : decBusy s.dec = false) :
      DecChange s decStarted
  | taken {d : Dec} (move : takesTurn .dec s) (result : DecTaken s.dec d) : DecChange s d

theorem encStart_change {s : State} {w h : Dim} {c sp : Byte} {rest : List Move}
    (move : s.agenda = .encStart w h c sp :: rest) {u : State} (hu : u.enc = s.enc) :
    EncChange s (encStart w h c sp u).enc := by
  rw [encStart_enc, hu]
  cases free : encBusy s.enc
  · exact .started w h c sp move free
  · exact .kept

theorem decStart_change {s : State} {rest : List Move} (move : s.agenda = .decStart :: rest) {u : State}
    (hu : u.dec = s.dec) : DecChange s (decStart u).dec := by
  rw [decStart_dec, hu]
  cases free : decBusy s.dec
  · exact .started move free
  · exact .kept

theorem step_encChange {s t : State} (h : step s = .next t) : EncChange s t.enc := by
  obtain ⟨agenda, turn, -, ⟨hm, rfl⟩ | ⟨w, hh, c, sp, hm, rfl⟩ | ⟨-, rfl⟩ | ⟨ps, -, rfl⟩ | ⟨bs, -, -, rfl⟩ | ⟨-, rfl⟩
    | ⟨-, -, rfl⟩ | ⟨-, -, rfl⟩ | ⟨hm, rfl⟩ | ⟨-, hturn⟩⟩ := step_next_cases h
  · exact .reset hm
  · exact encStart_change hm rfl
  · rw [decStart_enc]
    exact .kept
  · exact .kept
  · exact .kept
  · exact .kept
  · exact .kept
  · exact .kept
  · exact .taken (hm.imp_left (⟨agenda, ·⟩)) (encTurn_taken { s with agenda := agenda, turn := turn })
  · rw [decTurn_enc hturn]
    exact .kept

theorem step_decChange {s t : State} (h : step s = .next t) : DecChange s t.dec := by
  obtain ⟨agenda, turn, -, ⟨hm, rfl⟩ | ⟨w, hh, c, sp, -, rfl⟩ | ⟨hm, rfl⟩ | ⟨ps, -, rfl⟩ | ⟨bs, -, -, rfl⟩ | ⟨-, rfl⟩
    | ⟨-, -, rfl⟩ | ⟨-, -, rfl⟩ | ⟨-, rfl⟩ | ⟨hm, hturn⟩⟩ := step_next_cases h
  · exact .reset hm
  · rw [encStart_dec]
    exact .kept
  · exact decStart_change hm rfl
  · exact .kept
  · exact .kept
  · exact .kept
  · exact .kept
  · exact .kept
  · rw [encTurn_dec]
    exact .kept
  · exact .taken (hm.imp_left (⟨agenda, ·⟩)) (decTurn_taken (s := { s with agenda := agenda, turn := turn }) hturn)

/-! ## Phases -/

/-- Settles O32: each thing a step can leave in a context is a row of R30. -/
theorem phasesChangeOnlyAsListed : Obligations.PhasesChangeOnlyAsListed := by
  intro s t h
  have henc := step_encChange h
  have hdec := step_decChange h
  generalize t.enc = e at henc ⊢
  generalize t.dec = d at hdec ⊢
  constructor
  · cases henc with
    | kept => exact .inl rfl
    | reset move => exact .inr (.inl ⟨_, move, rfl⟩)
    | started w hh c sp move free =>
      exact .inr (.inr (.inl ⟨w, hh, c, sp, _, move, (encBusy_eq_false_iff _).1 free,
        by simp [encStarted, legalChannels_iff]⟩))
    | taken move result =>
      cases result with
      | waited => exact .inl rfl
      | coded q => exact .inl (encPixelState_phase _ _)
      | finished phase all => exact .inr (.inr (.inr ⟨move, phase, all, rfl⟩))
  · cases hdec with
    | kept => exact .inl rfl
    | reset move => exact .inr (.inl ⟨_, move, rfl⟩)
    | started move free => exact .inr (.inr (.inl ⟨_, move, (decBusy_eq_false_iff _).1 free, rfl⟩))
    | taken move result =>
      cases result with
      | waited => exact .inl rfl
      | headed w hh c sp phase => exact .inr (.inr (.inr (.inl ⟨move, phase, .inl rfl⟩)))
      | delivered => exact .inl rfl
      | finished phase all => exact .inr (.inr (.inr (.inr (.inr ⟨move, phase, all, .inl rfl⟩))))
      | failed code isError enabled =>
        obtain phase | ⟨phase, hlt | heq⟩ := enabled
        · exact .inr (.inr (.inr (.inl ⟨move, phase, .inr rfl⟩)))
        · exact .inr (.inr (.inr (.inr (.inl ⟨move, phase, hlt, rfl⟩))))
        · exact .inr (.inr (.inr (.inr (.inr ⟨move, phase, heq, .inr rfl⟩))))

end Sys2Proof.Machine
end

section
/-! PROOFS. The invariants of spec/10_state.md R37 and those of a call between steps, kept by every step: each context
on its own, by what a step can leave in it. -/

namespace Sys2Proof.Machine

open Sys2Proof

/-! ## The total -/

/-- Settles O42: the product of two 32-bit values fits 64 bits. -/
theorem totalIsTheFullProduct : Obligations.TotalIsTheFullProduct := by
  intro w h
  have hlt : w.toNat * h.toNat < 2 ^ 32 * 2 ^ 32 := Nat.mul_lt_mul'' w.isLt h.isLt
  rw [pixelTotal, BitVec.toNat_mul, BitVec.toNat_setWidth_of_le (by decide), BitVec.toNat_setWidth_of_le (by decide),
    Nat.mod_eq_of_lt (by omega)]

@[simp] theorem pixelTotal_zero : pixelTotal 0 0 = 0 := rfl

/-! ## The call invariant of ENC -/

/-- At the last pixel the run is flushed (spec/42_encoder.md R152). -/
theorem flushesRun_of_last {e : Enc} (h : e.pos + 1 = e.total) : flushesRun e = true := by
  have hlast : isLast e = true := by simp [isLast, ← h]
  simp [flushesRun, hlast]

/-- The 62nd pixel of a run flushes it (spec/42_encoder.md R152). -/
theorem flushesRun_of_full {e : Enc} (h : e.run + 1 = 62) : flushesRun e = true := by
  rw [flushesRun, h]
  rfl

theorem encCallInv_reset : encCallInv Enc.reset := by decide

theorem encCallInv_started (w h : Dim) (c sp : Byte) : encCallInv (encStarted w h c sp) := by
  cases hc : Config.legalChannels c <;> simp [encCallInv, encStarted, encLatched, encReinit, hc]

theorem encCallInv_coded {e : Enc} (h : encCallInv e) (phase : e.phase = .pixels) (p : Pixel) :
    encCallInv (encPixelState e p) := by
  obtain ⟨-, htotal, hlegal, -, -⟩ := h
  refine ⟨by simp [phase], by simpa using htotal, by simpa using hlegal, fun hlast => ?_, by simp [phase]⟩
  rw [encPixelState_pos, encPixelState_total] at hlast
  simp [encPixelState_run, flushesRun_of_last hlast]

theorem encCallInv_taken {e e' : Enc} (h : encCallInv e) (result : EncTaken e e') : encCallInv e' := by
  cases result with
  | waited => exact h
  | coded q phase => exact encCallInv_coded h phase _
  | finished phase all =>
    obtain ⟨-, htotal, hlegal, hflushed, -⟩ := h
    exact ⟨by simp, htotal, fun _ => hlegal (.inl phase), hflushed, fun _ => all⟩

theorem encCallInv_change {s : State} {e : Enc} (h : encCallInv s.enc) (change : EncChange s e) : encCallInv e := by
  cases change with
  | kept => exact h
  | reset => exact encCallInv_reset
  | started w hh c sp => exact encCallInv_started w hh c sp
  | taken _ result => exact encCallInv_taken h result

/-! ## The call invariant of DEC -/

theorem decCallInv_reset : decCallInv Dec.reset := by decide

theorem decCallInv_started : decCallInv decStarted := by decide

theorem decCallInv_taken {d d' : Dec} (h : decCallInv d) (result : DecTaken d d') : decCallInv d' := by
  have ⟨htransient, htotal, hvalid, hcleared, hparsed, hunparsed, _⟩ := h
  cases result with
  | waited => exact h
  | headed w hh c sp phase legal => simp [decCallInv, headerLatched, legal]
  | delivered n cache p phase =>
    exact ⟨htransient, htotal, hvalid, hcleared, hparsed, hunparsed, by simp [phase]⟩
  | finished phase all =>
    exact ⟨by simp, htotal, hvalid, hcleared, fun _ => hparsed (.inl phase), by simp, fun _ => all⟩
  | failed => exact ⟨by simp, htotal, hvalid, hcleared, by simp, by simp, by simp⟩

theorem decCallInv_change {s : State} {d : Dec} (h : decCallInv s.dec) (change : DecChange s d) : decCallInv d := by
  cases change with
  | kept => exact h
  | reset => exact decCallInv_reset
  | started => exact decCallInv_started
  | taken _ result => exact decCallInv_taken h result

/-- Settles O52, context by context. -/
theorem stepKeepsTheCallInvariant : Obligations.StepKeepsTheCallInvariant := by
  rintro s t ⟨henc, hdec⟩ h
  exact ⟨encCallInv_change henc (step_encChange h), decCallInv_change hdec (step_decChange h)⟩

/-! ## The caches -/

theorem cacheHonest_emptyCache : cacheHonest emptyCache := fun i => .inl (readSlot_emptyCache i)

/-- A pixel stored at its own index keeps the cache honest (R37 c). -/
theorem cacheHonest_writeSlot {c : Cache} (h : cacheHonest c) (p : Pixel) :
    cacheHonest (writeSlot c (indexOf p) p) := by
  intro i
  rw [readSlot_writeSlot]
  split
  · exact .inr (‹i = indexOf p›).symm
  · exact h i

/-! ## R37 on ENC -/

/-- The clauses of R37 that speak of ENC. -/
structure EncRegisterInv (e : Enc) : Prop where
  run_le : e.run.toNat ≤ 61
  pos_le : e.pos ≤ e.total
  honest : cacheHonest e.cache
  opaque3 : opaqueWhenThree e
  err_iff : e.err ≠ .none ↔ e.phase = .error

/-- The clauses of R37 that speak of DEC. -/
structure DecRegisterInv (d : Dec) : Prop where
  count_le : d.count ≤ d.total
  honest : cacheHonest d.cache
  err_iff : d.err ≠ .none ↔ d.phase = .error

/-- R37 is its clauses on ENC and on DEC. -/
theorem registerInv_iff (s : State) : registerInv s ↔ EncRegisterInv s.enc ∧ DecRegisterInv s.dec := by
  constructor
  · rintro ⟨hrun, ⟨hpos, hcount⟩, ⟨hce, hcd⟩, hopaque, hee, hed⟩
    exact ⟨⟨hrun, hpos, hce, hopaque, hee⟩, hcount, hcd, hed⟩
  · rintro ⟨⟨hrun, hpos, hce, hopaque, hee⟩, hcount, hcd, hed⟩
    exact ⟨hrun, ⟨hpos, hcount⟩, ⟨hce, hcd⟩, hopaque, hee, hed⟩

/-- R37 holds of ENC with its running state call-initial, whatever its operands (R33). -/
theorem encRegisterInv_of_initial {e : Enc} (hrun : e.run = 0) (hpos : e.pos = 0) (hprev : e.prev = Pixel.opaqueBlack)
    (hcache : e.cache = emptyCache) (herr : e.err ≠ .none ↔ e.phase = .error) : EncRegisterInv e where
  run_le := by simp [hrun]
  pos_le := by rw [hpos]; bv_omega
  honest := hcache ▸ cacheHonest_emptyCache
  opaque3 := fun _ => by simp [hprev, hcache, Pixel.opaqueBlack]
  err_iff := herr

theorem encRegisterInv_reset : EncRegisterInv Enc.reset := encRegisterInv_of_initial rfl rfl rfl rfl (by decide)

theorem encRegisterInv_started (w h : Dim) (c sp : Byte) : EncRegisterInv (encStarted w h c sp) := by
  refine encRegisterInv_of_initial rfl rfl rfl rfl ?_
  cases hc : Config.legalChannels c <;> simp [encStarted, hc]

/-- The run counts on only below 61: at 62 it is flushed (R37 a, R152). -/
theorem run_le_coded {e : Enc} (h : e.run.toNat ≤ 61) (p : Pixel) : (encPixelState e p).run.toNat ≤ 61 := by
  rw [encPixelState_run]
  split
  next hcount =>
    obtain ⟨-, hkept⟩ := hcount
    have hne : e.run + 1 ≠ 62 := fun hfull => by simp [flushesRun_of_full hfull] at hkept
    bv_omega
  · decide

theorem cacheHonest_coded {e : Enc} (h : cacheHonest e.cache) (p : Pixel) : cacheHonest (encPixelState e p).cache := by
  rw [encPixelState_cache]
  split
  · exact h
  · exact cacheHonest_writeSlot h p

/-- With 3 channels the working pixel is opaque (R150). -/
theorem workingPixel_opaque {c : Byte} (h : c = 3) (q : Pixel) : (workingPixel c q).a = 255 := by
  simp [workingPixel, h]

theorem opaqueWhenThree_coded {e : Enc} (h : opaqueWhenThree e) (q : Pixel) :
    opaqueWhenThree (encPixelState e (workingPixel e.channels q)) := by
  intro hthree
  rw [encPixelState_channels] at hthree
  have hq := workingPixel_opaque hthree q
  obtain ⟨-, hslots⟩ := h hthree
  refine ⟨by simpa using hq, fun i => ?_⟩
  rw [encPixelState_cache]
  split
  · exact hslots i
  · rw [readSlot_writeSlot]
    split
    · exact .inr hq
    · exact hslots i

theorem encRegisterInv_coded {e : Enc} (h : EncRegisterInv e) (more : e.pos < e.total) (q : Pixel) :
    EncRegisterInv (encPixelState e (workingPixel e.channels q)) where
  run_le := run_le_coded h.run_le _
  pos_le := by
    rw [encPixelState_pos, encPixelState_total]
    bv_omega
  honest := cacheHonest_coded h.honest _
  opaque3 := opaqueWhenThree_coded h.opaque3 q
  err_iff := by simpa using h.err_iff

theorem encRegisterInv_taken {e e' : Enc} (h : EncRegisterInv e) (result : EncTaken e e') : EncRegisterInv e' := by
  cases result with
  | waited => exact h
  | coded q _ more => exact encRegisterInv_coded h more q
  | finished phase =>
    have hnone : e.err = .none := by simpa [phase] using h.err_iff
    exact ⟨h.run_le, h.pos_le, h.honest, h.opaque3, by simp [hnone]⟩

theorem encRegisterInv_change {s : State} {e : Enc} (h : EncRegisterInv s.enc) (change : EncChange s e) :
    EncRegisterInv e := by
  cases change with
  | kept => exact h
  | reset => exact encRegisterInv_reset
  | started w hh c sp => exact encRegisterInv_started w hh c sp
  | taken _ result => exact encRegisterInv_taken h result

/-! ## R37 on DEC -/

theorem decRegisterInv_reset : DecRegisterInv Dec.reset := ⟨by decide, cacheHonest_emptyCache, by decide⟩

theorem decRegisterInv_started : DecRegisterInv decStarted := ⟨by decide, cacheHonest_emptyCache, by decide⟩

/-- Before its header is read, a call has delivered nothing: `total` is still 0 (R29, R26). -/
theorem count_zero_of_header {d : Dec} (h : DecRegisterInv d) (hcall : decCallInv d) (phase : d.phase = .header) :
    d.count = 0 := by
  obtain ⟨-, htotal, -, hcleared, -, hunparsed, -⟩ := hcall
  obtain ⟨hw, hh, -⟩ := hcleared (hunparsed (.inr phase))
  have hle := h.count_le
  rw [htotal, hw, hh, pixelTotal_zero] at hle
  bv_omega

theorem decRegisterInv_taken {d d' : Dec} (h : DecRegisterInv d) (hcall : decCallInv d) (result : DecTaken d d') :
    DecRegisterInv d' := by
  cases result with
  | waited => exact h
  | headed w hh c sp phase =>
    have hnone : d.err = .none := by simpa [phase] using h.err_iff
    refine ⟨?_, h.honest, by simp [headerLatched, hnone]⟩
    rw [headerLatched, count_zero_of_header h hcall phase]
    bv_omega
  | delivered n cache p phase fits stored =>
    refine ⟨?_, ?_, h.err_iff⟩
    · exact BitVec.le_def.2 ((toNat_add_of_fits fits).trans_le fits)
    · obtain rfl | rfl := stored
      · exact h.honest
      · exact cacheHonest_writeSlot h.honest p
  | finished phase =>
    have hnone : d.err = .none := by simpa [phase] using h.err_iff
    exact ⟨h.count_le, h.honest, by simp [hnone]⟩
  | failed code isError => exact ⟨h.count_le, h.honest, by simp [isError]⟩

theorem decRegisterInv_change {s : State} {d : Dec} (h : DecRegisterInv s.dec) (hcall : decCallInv s.dec)
    (change : DecChange s d) : DecRegisterInv d := by
  cases change with
  | kept => exact h
  | reset => exact decRegisterInv_reset
  | started => exact decRegisterInv_started
  | taken _ result => exact decRegisterInv_taken h hcall result

/-! ## Steps and runs -/

/-- Settles O51: R37 context by context, DEC's part with the call invariant, and the call invariant by O52. -/
theorem stepKeepsTheInvariants : Obligations.StepKeepsTheInvariants := by
  rintro s t ⟨hreg, hcall⟩ h
  obtain ⟨henc, hdec⟩ := (registerInv_iff s).1 hreg
  refine ⟨(registerInv_iff t).2 ⟨?_, ?_⟩, stepKeepsTheCallInvariant s t hcall h⟩
  · exact encRegisterInv_change henc (step_encChange h)
  · exact decRegisterInv_change hdec hcall.2 (step_decChange h)

/-- Contexts at reset meet the invariants, whatever the streams hold and whatever moves are to come. -/
theorem machineInv_of_reset {s : State} (he : s.enc = Enc.reset) (hd : s.dec = Dec.reset) : machineInv s := by
  rw [machineInv, callInv, registerInv_iff, he, hd]
  exact ⟨⟨encRegisterInv_reset, decRegisterInv_reset⟩, encCallInv_reset, decCallInv_reset⟩

/-- Settles O50. -/
theorem resetMeetsTheInvariants : Obligations.ResetMeetsTheInvariants := machineInv_of_reset rfl rfl

/-- Every state a run reaches meets the invariants: they hold at reset and every step keeps them. -/
theorem machineInv_of_reachable {s : State} (h : Reachable s) : machineInv s := by
  induction h with
  | start moves => exact machineInv_of_reset rfl rfl
  | step before taken ih => exact stepKeepsTheInvariants _ _ ih taken

/-- Settles O53: R37 is part of what every reachable state meets. -/
theorem reachableStatesMeetR37 : Obligations.ReachableStatesMeetR37 := fun _ h => (machineInv_of_reachable h).1

end Sys2Proof.Machine
end

section
/-! PROOFS. What the host reads is the register's value, zero-extended (spec/10_state.md R31, R32). -/

namespace Sys2Proof.Machine

open Sys2Proof

theorem toNat_bitValue (b : Bool) : (bitValue b).toNat = if b = true then 1 else 0 := by
  cases b <;> rfl

theorem encBusy_iff_not_resting (e : Enc) :
    encBusy e = true ↔ e.phase ≠ .idle ∧ e.phase ≠ .done ∧ e.phase ≠ .error := by
  rw [← Bool.not_eq_false, encBusy_eq_false_iff, not_or, not_or]

theorem decBusy_iff_not_resting (d : Dec) :
    decBusy d = true ↔ d.phase ≠ .idle ∧ d.phase ≠ .done ∧ d.phase ≠ .error := by
  rw [← Bool.not_eq_false, decBusy_eq_false_iff, not_or, not_or]

/-- Settles O34: the levels, the error codes, then the readable registers of ENC and of DEC. -/
theorem statusFollowsThePhase : Obligations.StatusFollowsThePhase := by
  intro s
  refine ⟨?_, ⟨?_, ?_⟩, ?_, ?_⟩
  · simp [hostRead, toNat_bitValue, encBusy_iff_not_resting, decBusy_iff_not_resting, encDone, encError, decDone,
      decError]
  · cases h : s.enc.err <;> simp [hostRead, h, errValue]
  · cases h : s.dec.err <;> simp [hostRead, h, errValue]
  · refine ⟨?_, ?_, ?_, ?_, rfl⟩ <;> exact BitVec.toNat_setWidth_of_le (by decide)
  · refine ⟨?_, ?_, ?_, ?_, rfl⟩ <;> exact BitVec.toNat_setWidth_of_le (by decide)

end Sys2Proof.Machine
end

section
/-! PROOFS. The streams are FIFO queues (spec/20_memory.md R51, R56, R60): every step appends to the outputs and takes from
the front of the inputs, but for the two moves by which a source presents units. -/

namespace Sys2Proof.Machine

open Sys2Proof

/-! ## What a turn and a start leave on the input -/

theorem encStart_pin (w h : Dim) (c sp : Byte) (s : State) : (encStart w h c sp s).pin = s.pin := by
  unfold encStart
  cases encBusy s.enc <;> cases Config.legalChannels c <;> rfl

theorem decStart_bin (s : State) : (decStart s).bin = s.bin := by
  unfold decStart
  cases decBusy s.dec <;> rfl

/-- A turn of ENC takes at most the first pixel of PIN. -/
theorem encTurn_pin_suffix (s : State) : (encTurn s).pin <:+ s.pin := by
  obtain ⟨q, rest, hpin, -, hturn⟩ | ⟨-, hturn⟩ | hturn := encTurn_cases s <;> rw [hturn]
  · rw [hpin]
    exact List.suffix_cons q rest
  · exact List.suffix_rfl

/-- Executing a unit takes nothing from BIN: its bytes are consumed before. -/
theorem exec_bin {i : Instr} {s t : State} (h : exec i s = .next t) : t.bin = s.bin := by
  obtain ⟨_, _, _, _, -, -, -, rfl⟩ | ⟨_, _, _, _, -, -, -, rfl⟩ | ⟨-, -, -, _, rfl⟩ | ⟨-, -, _, -, rfl⟩
    | ⟨-, -, _, -, -, rfl⟩ | ⟨-, -, _, -, -, rfl⟩ | ⟨-, -, -, rfl⟩ := exec_next_cases h <;> rfl

/-- A turn of DEC takes bytes from the front of BIN: a unit's, the wrong magic's, all that is left of an input cut short,
or none. -/
theorem decTurn_bin_suffix {s t : State} (h : decTurn s = .next t) : t.bin <:+ s.bin := by
  obtain ⟨-, hturn⟩ | ⟨pos, -, ⟨i, rest, hdecode, hturn⟩ | ⟨-, hturn⟩ | ⟨-, hturn⟩⟩ := decTurn_cases s <;>
    rw [hturn] at h
  · cases h
    exact List.suffix_rfl
  · obtain ⟨front, hbin⟩ := suffix_of_decode hdecode
    exact ⟨front, by rw [exec_bin h, leaveBytes_bin, hbin]⟩
  · cases h
    unfold decShort
    split
    · exact List.nil_suffix
    · exact List.suffix_rfl
  · cases h
    exact List.drop_suffix 4 s.bin

/-! ## Streams that move on -/

/-- From `s` to `t` the outputs only grow at the end and the inputs only shrink at the front. -/
structure StreamsAdvance (s t : State) : Prop where
  bout : s.bout <+: t.bout
  pout : s.pout <+: t.pout
  bin : t.bin <:+ s.bin
  pin : t.pin <:+ s.pin

theorem StreamsAdvance.of_kept {s t : State} (hbout : t.bout = s.bout) (hpout : t.pout = s.pout)
    (hbin : t.bin <:+ s.bin) (hpin : t.pin <:+ s.pin) : StreamsAdvance s t :=
  ⟨hbout ▸ List.prefix_rfl, hpout ▸ List.prefix_rfl, hbin, hpin⟩

/-- The agenda and the turn are no streams. -/
theorem StreamsAdvance.of_scheduled {s t : State} {agenda : List Move} {turn : Context}
    (h : StreamsAdvance { s with agenda := agenda, turn := turn } t) : StreamsAdvance s t :=
  ⟨h.bout, h.pout, h.bin, h.pin⟩

/-- What is put into ENC's side appends to BOUT; that it takes from the front of PIN is all there is to show. -/
theorem streamsAdvance_joinEnc {s v : State} (h : v.pin <:+ s.pin) : StreamsAdvance s (joinEnc s v) :=
  ⟨List.prefix_append _ _, List.prefix_rfl, List.suffix_rfl, h⟩

/-- The same of DEC's side, POUT and BIN. -/
theorem streamsAdvance_joinDec {s v : State} (h : v.bin <:+ s.bin) : StreamsAdvance s (joinDec s v) :=
  ⟨List.prefix_rfl, List.prefix_append _ _, h, List.suffix_rfl⟩

theorem encStart_streamsAdvance (w h : Dim) (c sp : Byte) (s : State) : StreamsAdvance s (encStart w h c sp s) := by
  rw [encStart_eq_join]
  exact streamsAdvance_joinEnc (encStart_pin w h c sp (encSide s) ▸ List.suffix_rfl)

theorem decStart_streamsAdvance (s : State) : StreamsAdvance s (decStart s) := by
  rw [decStart_eq_join]
  exact streamsAdvance_joinDec (decStart_bin (decSide s) ▸ List.suffix_rfl)

theorem encTurn_streamsAdvance (s : State) : StreamsAdvance s (encTurn s) := by
  rw [encTurn_eq_join]
  exact streamsAdvance_joinEnc (encTurn_pin_suffix (encSide s))

theorem decTurn_streamsAdvance {s t : State} (h : decTurn s = .next t) : StreamsAdvance s t := by
  rw [decTurn_eq_join, mapNext_eq_next] at h
  obtain ⟨v, hturn, rfl⟩ := h
  exact streamsAdvance_joinDec (decTurn_bin_suffix (s := decSide s) hturn)

/-! ## Steps -/

/-- Every step moves the streams on, or is a source presenting units at the end of its stream and nothing else. -/
theorem step_streams {s t : State} (h : step s = .next t) :
    StreamsAdvance s t
      ∨ (∃ bs agenda turn, s.agenda = .bytes bs :: agenda
          ∧ t = { s with agenda := agenda, turn := turn, bin := s.bin ++ bs })
      ∨ (∃ ps agenda turn, s.agenda = .pixels ps :: agenda
          ∧ t = { s with agenda := agenda, turn := turn, pin := s.pin ++ ps }) := by
  obtain ⟨agenda, turn, -, ⟨-, rfl⟩ | ⟨w, hh, c, sp, -, rfl⟩ | ⟨-, rfl⟩ | ⟨ps, hm, rfl⟩ | ⟨bs, hm, -, rfl⟩ | ⟨-, rfl⟩
    | ⟨-, -, rfl⟩ | ⟨-, -, rfl⟩ | ⟨-, rfl⟩ | ⟨-, hturn⟩⟩ := step_next_cases h
  · exact .inl (.of_kept rfl rfl List.suffix_rfl List.suffix_rfl)
  · exact .inl (.of_scheduled (encStart_streamsAdvance w hh c sp _))
  · exact .inl (.of_scheduled (decStart_streamsAdvance _))
  · exact .inr (.inr ⟨ps, agenda, turn, hm, rfl⟩)
  · exact .inr (.inl ⟨bs, agenda, turn, hm, rfl⟩)
  · exact .inl (.of_kept rfl rfl List.suffix_rfl List.suffix_rfl)
  · exact .inl (.of_kept rfl rfl List.suffix_rfl List.nil_suffix)
  · exact .inl (.of_kept rfl rfl List.nil_suffix List.suffix_rfl)
  · exact .inl (.of_scheduled (encTurn_streamsAdvance _))
  · exact .inl (.of_scheduled (decTurn_streamsAdvance hturn))

/-- Settles O49: the streams move on, or exactly one input is extended, by its own source. -/
theorem streamsKeepTheirOrder : Obligations.StreamsKeepTheirOrder := by
  intro s t h
  obtain ⟨⟨out, hbout⟩, ⟨out', hpout⟩, hbin, hpin⟩ | ⟨bs, rest, _, hm, rfl⟩ | ⟨ps, rest, _, hm, rfl⟩ := step_streams h
  · exact ⟨⟨out, hbout.symm⟩, ⟨out', hpout.symm⟩, .inl ⟨_, List.suffix_iff_eq_drop.1 hbin⟩,
      .inl ⟨_, List.suffix_iff_eq_drop.1 hpin⟩⟩
  · exact ⟨⟨[], by simp⟩, ⟨[], by simp⟩, .inr ⟨bs, rest, hm, rfl⟩, .inl ⟨0, rfl⟩⟩
  · exact ⟨⟨[], by simp⟩, ⟨[], by simp⟩, .inl ⟨0, rfl⟩, .inr ⟨ps, rest, hm, rfl⟩⟩

end Sys2Proof.Machine
end

section
/-! PROOFS. The fields of bytes and words (spec/30_encoding.md R81 to R89): putting together and taking apart are
inverse. -/

namespace Sys2Proof

open Sys2Proof

/-! ## Fields and biases (R89) -/

theorem toNat_bitField (t : Byte) (lo width : Nat) : (bitField t lo width).toNat = t.toNat / 2 ^ lo % 2 ^ width := by
  simp [bitField, Nat.shiftRight_eq_div_pow]

theorem toNat_tagBits (t : Byte) : (bitField t 6 2).toNat = t.toNat / 64 := by
  have ht := t.isLt
  rw [toNat_bitField]
  omega

/-- A quantity in the range of an `n`-bit field with the given bias is read back from the field. -/
theorem unbias_rebias (n : Nat) {v : Int} (bias : Int)
    (h : inRange (-bias) (((2 ^ n : Nat) : Int) - 1 - bias) v = true) : unbias (rebias n v bias) bias = v := by
  rw [inRange, Bool.and_eq_true, decide_eq_true_eq, decide_eq_true_eq] at h
  have hkept : (v + bias) % ((2 ^ n : Nat) : Int) = v + bias := Int.emod_eq_of_lt (by omega) (by omega)
  rw [unbias, rebias, BitVec.toNat_ofInt, hkept]
  omega

@[simp] theorem rebias_unbias {n : Nat} (field : BitVec n) (bias : Int) :
    rebias n (unbias field bias) bias = field := by
  simp [rebias, unbias]

/-- What is read from a biased field is in the field's range. -/
theorem inRange_unbias {n : Nat} (field : BitVec n) (bias : Int) :
    inRange (-bias) (((2 ^ n : Nat) : Int) - 1 - bias) (unbias field bias) = true := by
  have hfield := field.isLt
  generalize 2 ^ n = size at hfield ⊢
  rw [inRange, unbias, Bool.and_eq_true, decide_eq_true_eq, decide_eq_true_eq]
  omega

/-! ## Four fields in a row: the bytes of a word (spec/20_memory.md R54), the bit pairs of a byte -/

theorem quarters_append {n : Nat} (v : BitVec (n + n + n + n)) :
    v.extractLsb' (n + n + n) n ++ v.extractLsb' (n + n) n ++ v.extractLsb' n n ++ v.extractLsb' 0 n = v := by
  rw [BitVec.extractLsb'_append_extractLsb'_eq_extractLsb' (start₁ := n + n) rfl,
    BitVec.extractLsb'_append_extractLsb'_eq_extractLsb' (start₁ := n) rfl]
  exact BitVec.extractLsb'_append_extractLsb'

theorem extractLsb'_append_skip {m n : Nat} (x : BitVec m) (y : BitVec n) (k len : Nat) :
    (x ++ y).extractLsb' (k + n) len = x.extractLsb' k len := by
  rw [BitVec.extractLsb'_append_eq_of_le (by omega), Nat.add_sub_cancel]

theorem quarters_of_append {n : Nat} (x y z u : BitVec n) :
    (x ++ y ++ z ++ u).extractLsb' (n + n + n) n = x ∧ (x ++ y ++ z ++ u).extractLsb' (n + n) n = y
      ∧ (x ++ y ++ z ++ u).extractLsb' n n = z ∧ (x ++ y ++ z ++ u).extractLsb' 0 n = u := by
  refine ⟨?_, ?_, ?_, BitVec.extractLsb'_append_eq_right⟩
  · rw [extractLsb'_append_skip, extractLsb'_append_skip, BitVec.extractLsb'_append_eq_left]
  · rw [extractLsb'_append_skip, BitVec.extractLsb'_append_eq_of_le le_rfl, Nat.sub_self,
      BitVec.extractLsb'_append_eq_right]
  · rw [BitVec.extractLsb'_append_eq_of_le le_rfl, Nat.sub_self, BitVec.extractLsb'_append_eq_right]

theorem fromBigEndian_bytes (v : Dim) :
    fromBigEndian (v.extractLsb' 24 8) (v.extractLsb' 16 8) (v.extractLsb' 8 8) (v.extractLsb' 0 8) = v :=
  quarters_append (n := 8) v

theorem toBigEndian_fromBigEndian (b3 b2 b1 b0 : Byte) :
    toBigEndian (fromBigEndian b3 b2 b1 b0) = [b3, b2, b1, b0] := by
  obtain ⟨h3, h2, h1, h0⟩ := quarters_of_append b3 b2 b1 b0
  rw [toBigEndian, fromBigEndian, h3, h2, h1, h0]

theorem pairs_append (t : Byte) :
    (bitField t 6 2 ++ bitField t 4 2 ++ bitField t 2 2 ++ bitField t 0 2 : BitVec 8) = t :=
  quarters_append (n := 2) t

theorem pairs_of_append (k x y z : BitVec 2) :
    bitField (k ++ x ++ y ++ z : BitVec 8) 6 2 = k ∧ bitField (k ++ x ++ y ++ z : BitVec 8) 4 2 = x
      ∧ bitField (k ++ x ++ y ++ z : BitVec 8) 2 2 = y ∧ bitField (k ++ x ++ y ++ z : BitVec 8) 0 2 = z :=
  quarters_of_append k x y z

/-! ## A tag and its payload -/

theorem tag_append_payload (t : Byte) : (bitField t 6 2 ++ bitField t 0 6 : BitVec 8) = t :=
  BitVec.extractLsb'_append_extractLsb'

@[simp] theorem payload_of_append (k : BitVec 2) (v : BitVec 6) : bitField (k ++ v : BitVec 8) 0 6 = v :=
  BitVec.extractLsb'_append_eq_right

theorem nibbles_append (t : Byte) : (bitField t 4 4 ++ bitField t 0 4 : BitVec 8) = t :=
  BitVec.extractLsb'_append_extractLsb'

@[simp] theorem highNibble_of_append (x y : BitVec 4) : bitField (x ++ y : BitVec 8) 4 4 = x :=
  BitVec.extractLsb'_append_eq_left

@[simp] theorem lowNibble_of_append (x y : BitVec 4) : bitField (x ++ y : BitVec 8) 0 4 = y :=
  BitVec.extractLsb'_append_eq_right

end Sys2Proof
end

section
/-! PROOFS. The encoding (spec/30_encoding.md R80 to R92): tag dispatch, and decoding and encoding as inverses, unit by
unit. -/

namespace Sys2Proof

open Sys2Proof

/-! ## Tag dispatch (R90) -/

section
variable (t : Byte)

/-- The tag bits are the quotient by 64, so the ordered tests are tests of ranges. -/
theorem tagKind_eq_ranges :
    tagKind t =
      if t.toNat = 0xFF then .rgba
      else if t.toNat = 0xFE then .rgb
      else if 0xC0 ≤ t.toNat then .run
      else if t.toNat < 0x40 then .index
      else if t.toNat < 0x80 then .diff
      else .luma := by
  have ht := t.isLt
  simp only [tagKind, ← BitVec.toNat_inj, toNat_tagBits]
  grind

theorem tagBits_eq_iff_mask (k : BitVec 2) : bitField t 6 2 = k ↔ t &&& 0xC0 = (k ++ 0#6 : BitVec 8) := by
  revert t k; decide

theorem tagKind_eq_rgba_iff : tagKind t = .rgba ↔ t = 0xFF := by
  rw [tagKind_eq_ranges, ← BitVec.toNat_inj]
  split_ifs <;> simp <;> omega

theorem tagKind_eq_rgb_iff : tagKind t = .rgb ↔ t = 0xFE := by
  rw [tagKind_eq_ranges, ← BitVec.toNat_inj]
  split_ifs <;> simp <;> omega

theorem tagKind_eq_run_iff : tagKind t = .run ↔ bitField t 6 2 = 0b11#2 ∧ t ≠ 0xFE ∧ t ≠ 0xFF := by
  rw [tagKind_eq_ranges, ne_eq, ne_eq, ← BitVec.toNat_inj, ← BitVec.toNat_inj, ← BitVec.toNat_inj, toNat_tagBits]
  split_ifs <;> simp <;> omega

theorem tagKind_eq_index_iff : tagKind t = .index ↔ bitField t 6 2 = 0b00#2 := by
  rw [tagKind_eq_ranges, ← BitVec.toNat_inj, toNat_tagBits]
  split_ifs <;> simp <;> omega

theorem tagKind_eq_diff_iff : tagKind t = .diff ↔ bitField t 6 2 = 0b01#2 := by
  rw [tagKind_eq_ranges, ← BitVec.toNat_inj, toNat_tagBits]
  split_ifs <;> simp <;> omega

theorem tagKind_eq_luma_iff : tagKind t = .luma ↔ bitField t 6 2 = 0b10#2 := by
  have ht := t.isLt
  rw [tagKind_eq_ranges, ← BitVec.toNat_inj, toNat_tagBits]
  split_ifs <;> simp <;> omega

end

/-- The two sentinels are the RUN tags whose payloads would be 62 and 63 (R86). -/
theorem payload_lt_iff_not_sentinel {t : Byte} (h : bitField t 6 2 = 0b11#2) :
    (bitField t 0 6).toNat < 62 ↔ t ≠ 0xFE ∧ t ≠ 0xFF := by
  have htag : t.toNat / 64 = 3 := by rw [← toNat_tagBits, h]; rfl
  have ht := t.isLt
  rw [toNat_bitField]
  bv_omega

/-- Settles O3: the ranges and the table by the tag bits, the counts by counting the 256 values. -/
theorem tagDispatchIsTotal : Obligations.TagDispatchIsTotal := by
  refine ⟨tagKind_eq_ranges, fun t => ?_, fun kind => ?_⟩
  · rw [tagKind_eq_rgba_iff, tagKind_eq_rgb_iff, tagKind_eq_run_iff, tagKind_eq_index_iff, tagKind_eq_diff_iff,
      tagKind_eq_luma_iff]
    have hall : t &&& 0xFF = t := BitVec.and_allOnes
    rw [hall]
    exact ⟨.rfl, .rfl, and_congr_left' (tagBits_eq_iff_mask t _), tagBits_eq_iff_mask t _, tagBits_eq_iff_mask t _,
      tagBits_eq_iff_mask t _⟩
  · cases kind <;> rfl

/-- Settles O5 by running the decoder on each word. -/
theorem specWordsDecode : Obligations.SpecWordsDecode := by
  unfold Obligations.SpecWordsDecode
  decide

/-! ## The length of a chunk (R91) -/

theorem decode_chunk_cons (t : Byte) (bs : List Byte) : decode .chunk (t :: bs) = decodeTagged t bs := rfl

/-- Settles O4: the kind fixes how many bytes are looked at, and either they are all there or one is missing. -/
theorem chunkLengthIsTheTags : Obligations.ChunkLengthIsTheTags := by
  refine ⟨by decide, fun t bs => ?_⟩
  rw [decode_chunk_cons, decodeTagged]
  cases tagKind t with
  | index => exact ⟨by simp [chunkLength], fun _ => ⟨_, rfl, rfl⟩⟩
  | diff => exact ⟨by simp [chunkLength], fun _ => ⟨_, rfl, rfl⟩⟩
  | run => exact ⟨by simp [chunkLength], fun _ => ⟨_, rfl, rfl⟩⟩
  | luma =>
    match bs with
    | [] => exact ⟨fun _ => rfl, by simp [chunkLength]⟩
    | s :: rest => exact ⟨by simp [chunkLength], fun _ => ⟨_, rfl, rfl⟩⟩
  | rgb =>
    match bs with
    | [] | [_] | [_, _] => exact ⟨fun _ => rfl, by simp [chunkLength]⟩
    | r :: g :: b :: rest => exact ⟨by simp [chunkLength], fun _ => ⟨_, rfl, rfl⟩⟩
  | rgba =>
    match bs with
    | [] | [_] | [_, _] | [_, _, _] => exact ⟨fun _ => rfl, by simp [chunkLength]⟩
    | r :: g :: b :: a :: rest => exact ⟨by simp [chunkLength], fun _ => ⟨_, rfl, rfl⟩⟩

/-! ## Well-formedness (R89) -/

theorem wellFormed_diff_iff (dr dg db : Int) : (Instr.diff dr dg db).WellFormed ↔
    inRange (-2) 1 dr = true ∧ inRange (-2) 1 dg = true ∧ inRange (-2) 1 db = true := by
  rw [Instr.WellFormed, Instr.wellFormed, Bool.and_eq_true, Bool.and_eq_true, and_assoc]

theorem wellFormed_luma_iff (dg drg dbg : Int) : (Instr.luma dg drg dbg).WellFormed ↔
    inRange (-32) 31 dg = true ∧ inRange (-8) 7 drg = true ∧ inRange (-8) 7 dbg = true := by
  rw [Instr.WellFormed, Instr.wellFormed, Bool.and_eq_true, Bool.and_eq_true, and_assoc]

theorem wellFormed_run_iff (n : Nat) : (Instr.run n).WellFormed ↔ 1 ≤ n ∧ n ≤ 62 := by
  rw [Instr.WellFormed, Instr.wellFormed, Bool.and_eq_true, decide_eq_true_eq, decide_eq_true_eq]

/-! ## Decoding what was encoded -/

theorem decodeHeader_encode (w h : Dim) (c s : Byte) (rest : List Byte) :
    decodeHeader (encode (.header w h c s) ++ rest) = .ok (.header w h c s, rest) := by
  have hfields : decodeHeader (encode (.header w h c s) ++ rest) =
      .ok (.header
        (fromBigEndian (w.extractLsb' 24 8) (w.extractLsb' 16 8) (w.extractLsb' 8 8) (w.extractLsb' 0 8))
        (fromBigEndian (h.extractLsb' 24 8) (h.extractLsb' 16 8) (h.extractLsb' 8 8) (h.extractLsb' 0 8)) c s,
        rest) := rfl
  rw [hfields, fromBigEndian_bytes, fromBigEndian_bytes]

theorem decodeTagged_encodeIndex (idx : Slot) (rest : List Byte) :
    decodeTagged (encodeIndex idx) rest = .ok (.index idx, rest) := by
  have hkind : tagKind (encodeIndex idx) = .index := (tagKind_eq_index_iff _).2 (Laws.TagByte.tag_append _ _)
  rw [decodeTagged, hkind, encodeIndex]
  simp only [payload_of_append]

theorem decodeTagged_encodeDiff {dr dg db : Int} (h : (Instr.diff dr dg db).WellFormed) (rest : List Byte) :
    decodeTagged (encodeDiff dr dg db) rest = .ok (.diff dr dg db, rest) := by
  obtain ⟨hdr, hdg, hdb⟩ := (wellFormed_diff_iff dr dg db).1 h
  obtain ⟨htag, hr, hg, hb⟩ := pairs_of_append 0b01#2 (rebias 2 dr 2) (rebias 2 dg 2) (rebias 2 db 2)
  have hkind : tagKind (encodeDiff dr dg db) = .diff := (tagKind_eq_diff_iff _).2 htag
  rw [decodeTagged, hkind, encodeDiff]
  simp only [hr, hg, hb]
  rw [unbias_rebias 2 2 hdr, unbias_rebias 2 2 hdg, unbias_rebias 2 2 hdb]

theorem decodeChunk_encodeLuma {dg drg dbg : Int} (h : (Instr.luma dg drg dbg).WellFormed) (rest : List Byte) :
    decodeChunk (encodeLuma dg drg dbg ++ rest) = .ok (.luma dg drg dbg, rest) := by
  obtain ⟨hdg, hdrg, hdbg⟩ := (wellFormed_luma_iff dg drg dbg).1 h
  have hkind : tagKind (0b10#2 ++ rebias 6 dg 32 : BitVec 8) = .luma :=
    (tagKind_eq_luma_iff _).2 (Laws.TagByte.tag_append _ _)
  rw [encodeLuma, List.cons_append, decodeChunk, decodeTagged, hkind]
  simp only [List.cons_append, List.nil_append, decodeLuma, payload_of_append, highNibble_of_append,
    lowNibble_of_append]
  rw [unbias_rebias 6 32 hdg, unbias_rebias 4 8 hdrg, unbias_rebias 4 8 hdbg]

theorem decodeTagged_encodeRun {n : Nat} (h : (Instr.run n).WellFormed) (rest : List Byte) :
    decodeTagged (encodeRun n) rest = .ok (.run n, rest) := by
  obtain ⟨hpos, hmax⟩ := (wellFormed_run_iff n).1 h
  have htag : bitField (encodeRun n) 6 2 = 0b11#2 := Laws.TagByte.tag_append _ _
  have hpayload : (bitField (encodeRun n) 0 6).toNat = n - 1 := by
    rw [encodeRun, payload_of_append, BitVec.toNat_ofNat]
    exact Nat.mod_eq_of_lt (by omega)
  have hkind : tagKind (encodeRun n) = .run :=
    (tagKind_eq_run_iff _).2 ⟨htag, (payload_lt_iff_not_sentinel htag).1 (by omega)⟩
  rw [decodeTagged, hkind]
  simp only [hpayload, Nat.sub_add_cancel hpos]

/-- Settles O1, unit by unit. -/
theorem decodeInvertsEncode : Obligations.DecodeInvertsEncode := by
  intro i rest h
  cases i with
  | header w hh c s => exact decodeHeader_encode w hh c s rest
  | index idx => exact decodeTagged_encodeIndex idx rest
  | diff dr dg db => exact decodeTagged_encodeDiff h rest
  | luma dg drg dbg => exact decodeChunk_encodeLuma h rest
  | run n => exact decodeTagged_encodeRun h rest
  | rgb r g b => rfl
  | rgba r g b a => rfl
  | trailer => rfl

/-! ## Encoding what was decoded -/

theorem encode_of_decodeHeader {bs rest : List Byte} {i : Instr} (h : decodeHeader bs = .ok (i, rest)) :
    encode i ++ rest = bs := by
  unfold decodeHeader at h
  split at h
  next m0 m1 m2 m3 more =>
    split at h
    next hmagic =>
      unfold decodeHeaderFields at h
      split at h <;> cases h
      rw [encode, toBigEndian_fromBigEndian, toBigEndian_fromBigEndian, ← hmagic]
      rfl
    · cases h
  · cases h

section
variable {t : Byte}

theorem encodeRun_of_tagKind (h : tagKind t = .run) : encodeRun ((bitField t 0 6).toNat + 1) = t := by
  obtain ⟨htag, -⟩ := (tagKind_eq_run_iff t).1 h
  rw [encodeRun, Nat.add_sub_cancel, BitVec.ofNat_toNat, BitVec.setWidth_eq, ← htag, tag_append_payload]

theorem encodeIndex_of_tagKind (h : tagKind t = .index) : encodeIndex (bitField t 0 6) = t := by
  rw [encodeIndex, ← (tagKind_eq_index_iff t).1 h, tag_append_payload]

theorem encodeDiff_of_tagKind (h : tagKind t = .diff) :
    encodeDiff (unbias (bitField t 4 2) 2) (unbias (bitField t 2 2) 2) (unbias (bitField t 0 2) 2) = t := by
  rw [encodeDiff, rebias_unbias, rebias_unbias, rebias_unbias, ← (tagKind_eq_diff_iff t).1 h, pairs_append]

theorem encodeLuma_of_tagKind (h : tagKind t = .luma) (s : Byte) :
    encodeLuma (unbias (bitField t 0 6) 32) (unbias (bitField s 4 4) 8) (unbias (bitField s 0 4) 8) = [t, s] := by
  rw [encodeLuma, rebias_unbias, rebias_unbias, rebias_unbias, ← (tagKind_eq_luma_iff t).1 h, tag_append_payload,
    nibbles_append]

theorem wellFormed_of_tagKind_run (h : tagKind t = .run) : (Instr.run ((bitField t 0 6).toNat + 1)).WellFormed := by
  obtain ⟨htag, hnot⟩ := (tagKind_eq_run_iff t).1 h
  have hpayload := (payload_lt_iff_not_sentinel htag).2 hnot
  exact (wellFormed_run_iff _).2 ⟨by omega, by omega⟩

end

theorem encode_of_decodeTagged {t : Byte} {bs rest : List Byte} {i : Instr} (h : decodeTagged t bs = .ok (i, rest)) :
    encode i ++ rest = t :: bs ∧ i.WellFormed := by
  revert h
  rw [decodeTagged]
  cases hkind : tagKind t with
  | index =>
    rintro ⟨⟩
    exact ⟨congrArg (· :: bs) (encodeIndex_of_tagKind hkind), rfl⟩
  | diff =>
    rintro ⟨⟩
    exact ⟨congrArg (· :: bs) (encodeDiff_of_tagKind hkind),
      (wellFormed_diff_iff _ _ _).2 ⟨inRange_unbias _ 2, inRange_unbias _ 2, inRange_unbias _ 2⟩⟩
  | luma =>
    intro h
    match bs with
    | s :: bs =>
      cases h
      exact ⟨congrArg (· ++ rest) (encodeLuma_of_tagKind hkind s),
        (wellFormed_luma_iff _ _ _).2 ⟨inRange_unbias _ 32, inRange_unbias _ 8, inRange_unbias _ 8⟩⟩
  | run =>
    rintro ⟨⟩
    exact ⟨congrArg (· :: bs) (encodeRun_of_tagKind hkind), wellFormed_of_tagKind_run hkind⟩
  | rgb =>
    intro h
    match bs with
    | r :: g :: b :: bs =>
      cases h
      exact ⟨congrArg (· :: r :: g :: b :: rest) ((tagKind_eq_rgb_iff t).1 hkind).symm, rfl⟩
  | rgba =>
    intro h
    match bs with
    | r :: g :: b :: a :: bs =>
      cases h
      exact ⟨congrArg (· :: r :: g :: b :: a :: rest) ((tagKind_eq_rgba_iff t).1 hkind).symm, rfl⟩

/-- Settles O2: the header by its fields, a chunk by the kind of its tag. -/
theorem encodeInvertsDecode : Obligations.EncodeInvertsDecode := by
  intro pos bs rest i hpos h
  cases pos with
  | header => exact ⟨encode_of_decodeHeader h, nofun⟩
  | chunk =>
    cases bs with
    | nil => cases h
    | cons t bs =>
      obtain ⟨hbytes, hwf⟩ := encode_of_decodeTagged h
      exact ⟨hbytes, fun _ => hwf⟩
  | trailer => exact absurd rfl hpos

end Sys2Proof
end

section
/-! PROOFS. What the encoder emits (spec/30_encoding.md R93, spec/42_encoder.md R151 to R161): each unit with the tests
that chose it. -/

namespace Sys2Proof.Machine

open Sys2Proof

/-! ## The unit of a pixel -/

/-- A function of the three channel deltas between `prev` and `p` (R132, R157). -/
abbrev onDeltas {α : Type} (f : Int → Int → Int → α) (prev p : Pixel) : α :=
  f (delta8 p.r prev.r) (delta8 p.g prev.g) (delta8 p.b prev.b)

/-- A chunk ENC emits in the step on the pixel `p`, with the tests that led to it (R151). -/
inductive Emitted (e : Enc) (p : Pixel) : Instr → Prop
  | flushed (repeats : p = e.prev) (flush : flushesRun e = true) : Emitted e p (.run (e.run + 1).toNat)
  | pending (changes : p ≠ e.prev) (counted : 0 < e.run) : Emitted e p (.run e.run.toNat)
  | index (changes : p ≠ e.prev) (hit : readSlot e.cache (indexOf p) = p) : Emitted e p (.index (indexOf p))
  | diff (changes : p ≠ e.prev) (miss : readSlot e.cache (indexOf p) ≠ p) (alpha : p.a = e.prev.a)
      (fits : onDeltas fitsDiff e.prev p = true) : Emitted e p (onDeltas .diff e.prev p)
  | luma (changes : p ≠ e.prev) (miss : readSlot e.cache (indexOf p) ≠ p) (alpha : p.a = e.prev.a)
      (noDiff : onDeltas fitsDiff e.prev p = false) (fits : onDeltas fitsLuma e.prev p = true) :
      Emitted e p (onDeltas (fun dr dg db => .luma dg (dr - dg) (db - dg)) e.prev p)
  | rgb (changes : p ≠ e.prev) (miss : readSlot e.cache (indexOf p) ≠ p) (alpha : p.a = e.prev.a)
      (noDiff : onDeltas fitsDiff e.prev p = false) (noLuma : onDeltas fitsLuma e.prev p = false) :
      Emitted e p (.rgb p.r p.g p.b)
  | rgba (changes : p ≠ e.prev) (miss : readSlot e.cache (indexOf p) ≠ p) (alpha : p.a ≠ e.prev.a) :
      Emitted e p (.rgba p.r p.g p.b p.a)

theorem encUnit_emitted {e : Enc} {p : Pixel} (changes : p ≠ e.prev) : Emitted e p (encUnit e p) := by
  rw [encUnit, cacheHit]
  split
  next hit => exact .index changes (beq_iff_eq.1 hit)
  next hmiss =>
    have miss : readSlot e.cache (indexOf p) ≠ p := fun heq => hmiss (beq_iff_eq.2 heq)
    split
    next alpha =>
      simp only [deltaUnit]
      split
      next fits => exact .diff changes miss alpha fits
      next noDiff =>
        rw [Bool.not_eq_true] at noDiff
        split
        next fits => exact .luma changes miss alpha noDiff fits
        next noLuma => exact .rgb changes miss alpha noDiff (Bool.eq_false_of_not_eq_true noLuma)
    next alpha => exact .rgba changes miss alpha

theorem emitted_of_mem {e : Enc} {p : Pixel} {i : Instr} (h : i ∈ encPixelUnits e p) : Emitted e p i := by
  unfold encPixelUnits pendingRun at h
  split at h
  next repeats =>
    split at h
    next flush => exact List.mem_singleton.1 h ▸ .flushed repeats flush
    · cases h
  next changes =>
    obtain hrun | hunit := List.mem_append.1 h
    · split at hrun
      next counted => exact List.mem_singleton.1 hrun ▸ .pending changes counted
      · cases hrun
    · exact List.mem_singleton.1 hunit ▸ encUnit_emitted changes

/-! ## Well-formed and canonical (R93) -/

/-- Settles O37: the ranges of the operands are the tests that chose the unit. -/
theorem encoderUnitsAreWellFormed : Obligations.EncoderUnitsAreWellFormed := by
  intro e p hrun i hi
  cases emitted_of_mem hi with
  | flushed => exact ⟨(wellFormed_run_iff _).2 (by bv_omega), rfl⟩
  | pending _ counted => exact ⟨(wellFormed_run_iff _).2 (by bv_omega), rfl⟩
  | diff _ _ _ fits => exact ⟨fits, rfl⟩
  | luma _ _ _ _ fits => exact ⟨fits, rfl⟩
  | index | rgb | rgba => exact ⟨rfl, rfl⟩

theorem delta8_eq_zero_iff (x y : Byte) : delta8 x y = 0 ↔ x = y := by
  rw [delta8, ← BitVec.toInt_zero (w := 8), BitVec.toInt_inj, BitVec.sub_eq_iff_eq_add, BitVec.zero_add]

theorem eq_of_deltas_zero {p q : Pixel} (hr : delta8 p.r q.r = 0) (hg : delta8 p.g q.g = 0) (hb : delta8 p.b q.b = 0)
    (ha : p.a = q.a) : p = q := by
  rw [delta8_eq_zero_iff] at hr hg hb
  cases p
  cases q
  exact (Pixel.mk.injEq ..).mpr ⟨hr, hg, hb, ha⟩

/-- Settles O38: each clause is a test that chose the unit, but that a DIFF of zero deltas would
be a pixel equal to `prev`, and that with 3 channels every alpha is 255. -/
theorem encoderIsCanonical : Obligations.EncoderIsCanonical := by
  intro e q hopaque p i hi
  cases emitted_of_mem hi with
  | flushed | pending => simp [writesCache]
  | index _ hit => simp [writesCache, hit]
  | diff changes miss alpha =>
    have hne : ¬ (delta8 p.r e.prev.r = 0 ∧ delta8 p.g e.prev.g = 0 ∧ delta8 p.b e.prev.b = 0) :=
      fun ⟨hr, hg, hb⟩ => changes (eq_of_deltas_zero hr hg hb alpha)
    simpa [miss] using hne
  | luma _ miss _ noDiff => simp [miss, noDiff]
  | rgb _ miss _ noDiff noLuma => simp [miss, noDiff, noLuma]
  | rgba _ miss alpha =>
    have hfour : e.channels ≠ 3 := fun hthree =>
      alpha ((workingPixel_opaque hthree q).trans (hopaque hthree).1.symm)
    refine ⟨by simp, by simp, fun _ => miss, by simp, by simp, ?_⟩
    rintro r g b a ⟨⟩
    exact ⟨alpha, hfour⟩

/-! ## Neighbouring runs (R93 e) -/

/-- Two neighbouring units are not both RUNs, unless the first is a full run (R93 e). -/
def RunsMayMeet (i j : Instr) : Prop := ∀ n m, i = .run n → j = .run m → n = 62

theorem encPixelUnits_isChain (e : Enc) (p : Pixel) : (encPixelUnits e p).IsChain RunsMayMeet := by
  unfold encPixelUnits pendingRun
  have hunit : ∀ i, RunsMayMeet i (encUnit e p) := fun i n m _ hrun => absurd hrun (encUnit_ne_run e p m)
  split_ifs <;> simp [hunit]

/-- A RUN that ends the units of a pixel is a full one or the last of the image (R152). -/
theorem last_of_encPixelUnits {e : Enc} {p : Pixel} {n : Nat} (h : .run n ∈ (encPixelUnits e p).getLast?) :
    n = 62 ∨ isLast e = true := by
  unfold encPixelUnits at h
  split_ifs at h with _ hflush
  · rw [List.getLast?_singleton, Option.mem_some_iff, Instr.run.injEq] at h
    rw [flushesRun, Bool.or_eq_true, beq_iff_eq] at hflush
    refine hflush.imp_left fun hfull => ?_
    rw [← h, hfull]
    rfl
  · simp at h
  · simp [encUnit_ne_run] at h

/-- Pixel by pixel: after a RUN that is not full no pixel is left. -/
theorem unitsOfPixels_isChain (e : Enc) (ps : List Pixel) (h : e.pos.toNat + ps.length ≤ e.total.toNat) :
    (unitsOfPixels e ps).IsChain RunsMayMeet := by
  induction ps generalizing e with
  | nil => exact .nil
  | cons p ps ih =>
    rw [List.length_cons] at h
    have hpos : (e.pos + 1).toNat = e.pos.toNat + 1 := by bv_omega
    refine (encPixelUnits_isChain e p).append (ih _ (by rw [encPixelState_pos, encPixelState_total]; omega)) ?_
    rintro i hi j hj n m rfl rfl
    obtain hfull | hlast := last_of_encPixelUnits hi
    · exact hfull
    · have hnone : ps = [] := by
        rw [isLast, beq_iff_eq] at hlast
        exact List.length_eq_zero_iff.1 (by bv_omega)
      simp [hnone, unitsOfPixels] at hj

/-- Settles O57: a RUN may meet a RUN only as neighbours in the whole sequence may. -/
theorem runsFollowOnlyFullRuns : Obligations.RunsFollowOnlyFullRuns := by
  intro e ps h front back n m heq
  exact List.isChain_iff_forall_rel_of_append_cons_cons.1 (unitsOfPixels_isChain e ps h) heq n m rfl rfl

end Sys2Proof.Machine
end

section
/-! PROOFS. The framing units and the two starts (spec/40_header_trailer.md R110 to R115): a start, a header and a
trailer as whole steps, and the image that has nothing between its header and its trailer. -/

namespace Sys2Proof.Machine

open Sys2Proof

/-! ## The total as a product of numbers -/

theorem pixelTotal_eq_ofNat (w h : Dim) : pixelTotal w h = BitVec.ofNat 64 (w.toNat * h.toNat) := by
  rw [← totalIsTheFullProduct w h, BitVec.ofNat_toNat, BitVec.setWidth_eq]

theorem pixelTotal_of_zeroArea {w h : Dim} (hzero : w = 0 ∨ h = 0) : pixelTotal w h = 0 := by
  obtain rfl | rfl := hzero <;> simp [pixelTotal]

/-! ## The starts (R110, R111) -/

/-- `EncStart` whole: the context of an accepted start, and the header on BOUT if its channel count is legal. -/
theorem encStart_eq (w h : Dim) (c sp : Byte) (s : State) :
    encStart w h c sp s =
      if encBusy s.enc then s
      else if Config.legalChannels c then
        { s with enc := encStarted w h c sp, bout := s.bout ++ plainBytes (encode (.header w h c sp)) }
      else { s with enc := encStarted w h c sp } := by
  unfold encStart encStarted
  cases encBusy s.enc <;> cases Config.legalChannels c <;> rfl

theorem decStart_eq (s : State) :
    decStart s = if decBusy s.dec then s else { s with dec := decStarted, binEnd := false } := by
  unfold decStart
  cases decBusy s.dec <;> rfl

theorem encStarted_of_legal {c : Byte} (w h : Dim) (sp : Byte) (hc : c = 3 ∨ c = 4) :
    encStarted w h c sp = { encLatched w h c sp Enc.reset with phase := .pixels } := by
  simp only [encStarted, legalChannels_iff, if_pos hc]
  rfl

theorem encStarted_of_illegal {c : Byte} (w h : Dim) (sp : Byte) (hc : ¬(c = 3 ∨ c = 4)) :
    encStarted w h c sp =
      { encLatched w h c sp Enc.reset with phase := .error, err := .unsupportedChannel } := by
  simp only [encStarted, legalChannels_iff, if_neg hc]

theorem step_of_encStart_accepted {s : State} {w h : Dim} {c sp : Byte} {rest : List Move}
    (hs : s.agenda = .encStart w h c sp :: rest) (hfree : encBusy s.enc = false) (hc : c = 3 ∨ c = 4) :
    step s = .next
      { s with
        agenda := rest, enc := encStarted w h c sp
        bout := s.bout ++ plainBytes (encode (.header w h c sp)) } := by
  rw [step_of_agenda hs, performMove, encStart_eq]
  simp [hfree, (legalChannels_iff c).2 hc]

/-- Settles O7: busy or not, and, if not, by the channel count. -/
theorem encStartFollowsR110 : Obligations.EncStartFollowsR110 := by
  intro s w h c sp rest hs latched
  rw [step_of_agenda hs, performMove, encStart_eq]
  simp only [encBusy_iff, legalChannels_iff]
  split_ifs with _ hc
  · rfl
  · simp only [encStarted_of_legal w h sp hc, encLatched, pixelTotal_eq_ofNat]
    rfl
  · simp only [encStarted_of_illegal w h sp hc, encLatched, pixelTotal_eq_ofNat]
    rfl

/-- Settles O8: busy or not; the level an accepted start leaves is low. -/
theorem decStartFollowsR111 : Obligations.DecStartFollowsR111 := by
  intro s rest hs
  refine ⟨false, ?_⟩
  rw [step_of_agenda hs, performMove, decStart_eq]
  simp only [decBusy_iff]
  split_ifs <;> rfl

/-! ## The meanings of the framing units (R112, R114) -/

/-- Settles O12: enabled, HEADER is its channel test. -/
theorem headerCompletes : Obligations.HeaderCompletes := by
  intro s w h c sp hphase
  simp only [exec, execHeader, whenEnabled, (decHeaderEnabled_iff _).2 hphase, if_true, legalChannels_iff]
  split_ifs with hc
  · rw [headerLatched, pixelTotal_eq_ofNat]
    rfl
  · rfl

/-- Settles O14: TRAILER is enabled and has no operand. -/
theorem trailerCompletes : Obligations.TrailerCompletes := by
  intro s hphase hall
  simp only [exec, execTrailer, whenEnabled, (decTrailerEnabled_iff _).2 ⟨hphase, hall⟩, if_true]
  rfl

/-! ## The bytes of the framing units, by how many there are -/

theorem decodeHeaderFields_eq (bs : List Byte) :
    decodeHeaderFields bs =
      if bs.length < 10 then .error .short
      else .ok (.header
        (fromBigEndian (bs.getD 0 0) (bs.getD 1 0) (bs.getD 2 0) (bs.getD 3 0))
        (fromBigEndian (bs.getD 4 0) (bs.getD 5 0) (bs.getD 6 0) (bs.getD 7 0)) (bs.getD 8 0) (bs.getD 9 0),
        bs.drop 10) := by
  match bs with
  | [] | [_] | [_, _] | [_, _, _] | [_, _, _, _] | [_, _, _, _, _] | [_, _, _, _, _, _] | [_, _, _, _, _, _, _]
  | [_, _, _, _, _, _, _, _] | [_, _, _, _, _, _, _, _, _] => rfl
  | _ :: _ :: _ :: _ :: _ :: _ :: _ :: _ :: _ :: _ :: rest => exact (if_neg (by simp)).symm

/-- The header's tests in their order (R112): four bytes, the magic, ten more. -/
theorem decodeHeader_eq (bs : List Byte) :
    decodeHeader bs =
      if bs.length < 4 then .error .short
      else if bs.take 4 ≠ [0x71, 0x6F, 0x69, 0x66] then .error .badMagic
      else if bs.length < 14 then .error .short
      else .ok (.header
        (fromBigEndian (bs.getD 4 0) (bs.getD 5 0) (bs.getD 6 0) (bs.getD 7 0))
        (fromBigEndian (bs.getD 8 0) (bs.getD 9 0) (bs.getD 10 0) (bs.getD 11 0)) (bs.getD 12 0) (bs.getD 13 0),
        bs.drop 14) := by
  match bs with
  | [] | [_] | [_, _] | [_, _, _] => rfl
  | m0 :: m1 :: m2 :: m3 :: fields =>
    have hfour : ¬(m0 :: m1 :: m2 :: m3 :: fields).length < 4 := by simp
    have hfourteen : fields.length < 10 ↔ (m0 :: m1 :: m2 :: m3 :: fields).length < 14 := by
      simp only [List.length_cons]
      omega
    rw [decodeHeader, if_neg hfour]
    by_cases hmagic : [m0, m1, m2, m3] = Config.magic
    · simp only [if_pos hmagic, decodeHeaderFields_eq, hfourteen]
      exact (if_neg (not_not.2 hmagic)).symm
    · rw [if_neg hmagic]
      exact (if_pos hmagic).symm

theorem decodeTrailer_eq (bs : List Byte) :
    decodeTrailer bs = if 8 ≤ bs.length then .ok (.trailer, bs.drop 8) else .error .short := by
  match bs with
  | [] | [_] | [_, _] | [_, _, _] | [_, _, _, _] | [_, _, _, _, _] | [_, _, _, _, _, _] | [_, _, _, _, _, _, _] => rfl
  | _ :: _ :: _ :: _ :: _ :: _ :: _ :: _ :: rest => exact (if_pos (by simp)).symm

theorem decodeTrailer_append {tail : List Byte} (h : tail.length = 8) (more : List Byte) :
    decodeTrailer (tail ++ more) = .ok (.trailer, more) := by
  rw [decodeTrailer_eq, if_pos (by simp [h]), ← h, List.drop_left]

/-! ## DEC's turn, by what the bytes at hand decode to -/

theorem decPosition_of_header {d : Dec} (h : d.phase = .header) : decPosition d = some .header := by
  simp [decPosition, decHeaderEnabled, h]

theorem decPosition_of_allDelivered {d : Dec} (h : d.phase = .chunks) (hall : d.count = d.total) :
    decPosition d = some .trailer := by
  simp [decPosition, decHeaderEnabled, decChunkEnabled, decTrailerEnabled, h, hall]

section
variable {s : State} {rest : List Move} {pos : Position}

theorem step_of_decTurn (hs : s.agenda = .turn .dec :: rest) (hpos : decPosition s.dec = some pos) :
    step s = decFetch pos { s with agenda := rest } := by
  simp only [step_of_agenda hs, performMove, contextTurn, decTurn, hpos]

/-- A unit is all there: it is executed with its bytes consumed (R191). -/
theorem step_of_decode_ok {i : Instr} {left : List Byte} (hs : s.agenda = .turn .dec :: rest)
    (hpos : decPosition s.dec = some pos) (h : decode pos s.bin = .ok (i, left)) :
    step s = exec i { s with agenda := rest, bin := left } := by
  simp only [step_of_decTurn hs hpos, decFetch, h]
  rfl

/-- Bytes are missing: TruncatedInputError once the input has ended, and waiting before (R52, R266). -/
theorem step_of_decode_short (hs : s.agenda = .turn .dec :: rest) (hpos : decPosition s.dec = some pos)
    (h : decode pos s.bin = .error .short) :
    step s = .next
      (if s.binEnd = true then
        { s with agenda := rest, bin := [], dec := { s.dec with err := .truncated, phase := .error } }
       else { s with agenda := rest }) := by
  simp only [step_of_decTurn hs hpos, decFetch, h]
  rfl

/-- The magic is wrong: FormatError, its four bytes consumed (R112). -/
theorem step_of_decode_badMagic (hs : s.agenda = .turn .dec :: rest) (hpos : decPosition s.dec = some pos)
    (h : decode pos s.bin = .error .badMagic) :
    step s = .next
      { s with
        agenda := rest, bin := s.bin.drop 4, dec := { s.dec with err := .format, phase := .error } } := by
  simp only [step_of_decTurn hs hpos, decFetch, h]
  rfl

/-- A whole header: its channel test decides (R112). -/
theorem step_of_decode_header {w h : Dim} {c sp : Byte} {left : List Byte} (hs : s.agenda = .turn .dec :: rest)
    (hphase : s.dec.phase = .header) (hdecode : decode .header s.bin = .ok (.header w h c sp, left)) :
    step s = .next
      { s with
        agenda := rest, bin := left
        dec :=
          if c = 3 ∨ c = 4 then
            { s.dec with
              width := w, height := h, channels := c, colorspace := sp
              total := BitVec.ofNat 64 (w.toNat * h.toNat), hdrValid := true, phase := .chunks }
          else { s.dec with err := .unsupportedChannel, phase := .error } } :=
  (step_of_decode_ok hs (decPosition_of_header hphase) hdecode).trans
    (headerCompletes { s with agenda := rest, bin := left } w h c sp hphase)

/-- A whole trailer: the image is done (R114). -/
theorem step_of_decode_trailer {left : List Byte} (hs : s.agenda = .turn .dec :: rest)
    (hphase : s.dec.phase = .chunks) (hall : s.dec.count = s.dec.total)
    (hdecode : decode .trailer s.bin = .ok (.trailer, left)) :
    step s = .next { s with agenda := rest, bin := left, dec := { s.dec with phase := .done } } :=
  (step_of_decode_ok hs (decPosition_of_allDelivered hphase hall) hdecode).trans
    (trailerCompletes { s with agenda := rest, bin := left } hphase hall)

end

/-- Settles O11: the tests of the statement are those of `decodeHeader_eq`, and the last is HEADER's own. -/
theorem decHeaderFollowsR112 : Obligations.DecHeaderFollowsR112 := by
  intro s rest hs hphase here b w h failed short
  have hpos := decPosition_of_header hphase
  have hdecode : decode .header s.bin = _ := decodeHeader_eq s.bin
  have hshort : decode .header s.bin = .error .short → step s = .next short := fun hd => by
    simp only [step_of_decode_short hs hpos hd, short, failed, here, List.drop_length]
  split_ifs at hdecode ⊢ with h4 hmagic h14 hc
  · exact hshort hdecode
  · exact step_of_decode_badMagic hs hpos hdecode
  · exact hshort hdecode
  · rw [step_of_decode_header hs hphase hdecode, if_neg (not_or.2 hc)]
  · rw [step_of_decode_header hs hphase hdecode, if_pos (or_iff_not_and_not.2 hc)]
    rfl

/-- Settles O13: eight bytes are TRAILER, which is enabled; fewer are a short input. -/
theorem decTrailerFollowsR114 : Obligations.DecTrailerFollowsR114 := by
  intro s rest hs hphase hall here
  have hpos := decPosition_of_allDelivered hphase hall
  have hdecode : decode .trailer s.bin = _ := decodeTrailer_eq s.bin
  split_ifs at hdecode ⊢ with h8 hend
  · exact step_of_decode_trailer hs hphase hall hdecode
  · rw [step_of_decode_short hs hpos hdecode, if_pos hend]
  · rw [step_of_decode_short hs hpos hdecode, if_neg hend]

/-! ## The end of an encode call (R113) -/

theorem encTurn_of_allCoded {s : State} (hphase : s.enc.phase = .pixels) (hall : s.enc.pos = s.enc.total) :
    encTurn s = encFinish s := by
  simp [encTurn, encPixelEnabled, encFinishEnabled, hphase, hall]

/-- With all pixels coded ENC's turn emits the trailer. -/
theorem step_of_allCoded {s : State} {rest : List Move} (hs : s.agenda = .turn .enc :: rest)
    (hphase : s.enc.phase = .pixels) (hall : s.enc.pos = s.enc.total) :
    step s = .next
      { s with
        agenda := rest, enc := { s.enc with phase := .done }
        bout := s.bout ++ finalBytes (encode .trailer) } := by
  rw [step_of_agenda hs]
  exact congrArg Host.Outcome.next (encTurn_of_allCoded (s := { s with agenda := rest }) hphase hall)

/-- Settles O15: that no run is pending at the last pixel is a clause of the call invariant. -/
theorem encFinishEmitsTrailer : Obligations.EncFinishEmitsTrailer := by
  intro s rest hs hphase hall
  refine ⟨step_of_allCoded hs hphase hall, ?_⟩
  rintro ⟨⟨-, -, -, hflushed, -⟩, -⟩
  exact hflushed hall

/-! ## The image with nothing in between (R115) -/

theorem run_two_of_steps {s u t : State} (hsu : step s = .next u) (hut : step u = .next t) :
    Host.Core.run core 2 s = .next t :=
  run_succ_iff.2 ⟨u, hsu, run_one_iff.2 hut⟩

/-- Settles O16: after a start, or a header, with a zero dimension the count stands at the total, 0, so that the
trailer's step is the next. -/
theorem zeroAreaImageHasNoChunk : Obligations.ZeroAreaImageHasNoChunk := by
  constructor
  · intro s w h c sp rest hzero hc hfree hs
    have hphase : (encStarted w h c sp).phase = .pixels := by rw [encStarted_of_legal w h sp hc]
    have hall : (encStarted w h c sp).pos = (encStarted w h c sp).total := (pixelTotal_of_zeroArea hzero).symm
    refine ⟨_, run_two_of_steps (step_of_encStart_accepted hs hfree hc) (step_of_allCoded rfl hphase hall),
      rfl, rfl, ?_⟩
    simp only [List.map_append, byte_plainBytes, byte_finalBytes]
    rfl
  · intro s w h c sp tail more rest hzero hc hphase hcount htail hbin hs
    have hdecode : decode .header s.bin = .ok (.header w h c sp, tail ++ more) := by
      rw [hbin, List.append_assoc]
      exact decodeHeader_encode w h c sp _
    have hheader := step_of_decode_header hs hphase hdecode
    rw [if_pos hc, ← pixelTotal_eq_ofNat, pixelTotal_of_zeroArea hzero] at hheader
    exact ⟨_, run_two_of_steps hheader (step_of_decode_trailer rfl rfl hcount (decodeTrailer_append htail more)),
      rfl, rfl, rfl, rfl⟩

end Sys2Proof.Machine
end

section
/-! PROOFS. The hash indexer and the delta coder (spec/41_hash_delta.md R130 to R135): the range tests as ranges of
integers, and the arithmetic modulo 64 and modulo 256. -/

namespace Sys2Proof.Machine

open Sys2Proof

/-! ## The hash index (R130, R131) -/

/-- Settles O39: reducing modulo 64 commutes with the sum and the products. -/
theorem indexIsTheWeightedSum : Obligations.IndexIsTheWeightedSum := by
  intro p
  refine ⟨BitVec.toNat_ofNat _ _, ?_⟩
  simp only [indexOf, BitVec.ofNat_add, BitVec.ofNat_mul, BitVec.ofNat_toNat]
  rfl

/-! ## The delta and the wrapping add (R132, R133) -/

theorem toNat_wrapAdd (y : Byte) (d : Int) : ((wrapAdd y d).toNat : Int) = (y.toNat + d) % 256 := by
  rw [wrapAdd, BitVec.toNat_ofInt]
  exact Int.toNat_of_nonneg (Int.emod_nonneg _ (by decide))

/-- The delta is the integer nearest 0 among those congruent to the difference of the channels. -/
theorem delta8_eq_bmod (x y : Byte) : delta8 x y = ((x.toNat : Int) - y.toNat).bmod 256 := by
  rw [delta8, BitVec.toInt_sub, BitVec.toInt_eq_toNat_bmod, BitVec.toInt_eq_toNat_bmod]
  exact (Int.sub_bmod _ _ _).symm

theorem delta8_bounds (x y : Byte) : -128 ≤ delta8 x y ∧ delta8 x y ≤ 127 :=
  ⟨BitVec.le_toInt _, Int.le_of_lt_add_one (BitVec.toInt_lt)⟩

theorem wrapAdd_delta8 (x y : Byte) : wrapAdd y (delta8 x y) = x := by
  rw [wrapAdd, delta8, BitVec.ofInt_add, BitVec.ofInt_toInt, BitVec.ofInt_natCast, BitVec.ofNat_toNat,
    BitVec.setWidth_eq]
  exact add_sub_cancel y x

/-- Settles O40: both directions work modulo 256, and the delta is the representative in -128..127. -/
theorem deltaIsInvertedByWrappingAdd : Obligations.DeltaIsInvertedByWrappingAdd := by
  refine ⟨toNat_wrapAdd, fun x y => ?_⟩
  obtain ⟨hlo, hhi⟩ := delta8_bounds x y
  refine ⟨hlo, hhi, ?_, BitVec.toInt_sub, wrapAdd_delta8 x y⟩
  rw [delta8_eq_bmod]
  exact Int.emod_eq_zero_of_dvd Int.dvd_bmod_sub_self

/-! ## The range tests (R134, R135) -/

theorem inRange_iff (lo hi v : Int) : inRange lo hi v = true ↔ lo ≤ v ∧ v ≤ hi := by
  rw [inRange, Bool.and_eq_true, decide_eq_true_eq, decide_eq_true_eq]

theorem fitsDiff_iff (dr dg db : Int) :
    fitsDiff dr dg db = true ↔ (-2 ≤ dr ∧ dr ≤ 1) ∧ (-2 ≤ dg ∧ dg ≤ 1) ∧ -2 ≤ db ∧ db ≤ 1 := by
  simp only [fitsDiff, Bool.and_eq_true, inRange_iff, and_assoc]

theorem fitsLuma_iff (dr dg db : Int) :
    fitsLuma dr dg db = true ↔
      (-32 ≤ dg ∧ dg ≤ 31) ∧ (-8 ≤ dr - dg ∧ dr - dg ≤ 7) ∧ -8 ≤ db - dg ∧ db - dg ≤ 7 := by
  simp only [fitsLuma, Bool.and_eq_true, inRange_iff, and_assoc]

/-- The second difference of deltas with `dg` in the LUMA range is in -159..159, where wrapping to 8 bits moves no value
into or out of -8..7 (R135). -/
theorem inRange_bmod_sub {d dg : Int} (hlo : -128 ≤ d) (hhi : d ≤ 127) (hdg : inRange (-32) 31 dg = true) :
    inRange (-8) 7 ((d - dg).bmod 256) = inRange (-8) 7 (d - dg) := by
  rw [inRange_iff] at hdg
  rw [Bool.eq_iff_iff, inRange_iff, inRange_iff, Int.bmod_def]
  omega

/-- Settles O41: when `dg` is out of range both tests are false, and when it is in range a wrap cannot be seen. -/
theorem secondDifferencesMayWrap : Obligations.SecondDifferencesMayWrap := by
  intro dr dg db hdr hdr' _ _ hdb hdb'
  refine ⟨fitsLuma_iff dr dg db, ?_⟩
  rw [fitsLuma]
  cases hdg : inRange (-32) 31 dg with
  | false => rfl
  | true => rw [inRange_bmod_sub hdr hdr' hdg, inRange_bmod_sub hdb hdb' hdg]

/-! ## The choice of the delta unit (R157 to R160) -/

/-- Settles O58: the tests of `deltaUnit` are the ranges. -/
theorem deltaUnitIsChosenByRange : Obligations.DeltaUnitIsChosenByRange := by
  refine ⟨fitsDiff_iff, fun prev p => ?_⟩
  simp only [deltaUnit, ← fitsDiff_iff, ← fitsLuma_iff]
  exact ⟨fun hdiff => if_pos hdiff, fun hdiff hluma => (if_neg hdiff).trans (if_pos hluma),
    fun hdiff hluma => (if_neg hdiff).trans (if_neg hluma)⟩

end Sys2Proof.Machine
end

section
/-! PROOFS. The encoder's step is the pseudocode of spec/42_encoder.md R151, byte for byte, and how much it emits
(R163). -/

namespace Sys2Proof.Machine

open Sys2Proof

/-! ## The size of the output (R163) -/

theorem length_encode_le_of_emitted {e : Enc} {p : Pixel} {i : Instr} (h : Emitted e p i) : (encode i).length ≤ 5 := by
  cases h <;> simp [encode, encodeLuma]

theorem length_encode_run (n : Nat) : (encode (.run n)).length = 1 := rfl

/-- Settles O36: a repeated pixel emits one RUN at most; another emits its own chunk, of at most five bytes, after the one
byte of a pending RUN. -/
theorem encoderEmitsAtMostSixBytes : Obligations.EncoderEmitsAtMostSixBytes := by
  intro e p
  unfold encPixelUnits pendingRun
  split_ifs with hrepeat _ hpending
  · simp [length_encode_run]
  · simp
  · have hunit := length_encode_le_of_emitted (encUnit_emitted hrepeat)
    refine ⟨by simp, ?_, by simp [unitKind]⟩
    rw [List.flatMap_append, List.flatMap_singleton, List.flatMap_singleton, List.length_append, length_encode_run]
    omega
  · have hunit := length_encode_le_of_emitted (encUnit_emitted hrepeat)
    refine ⟨by simp, ?_, by simp⟩
    rw [List.nil_append, List.flatMap_singleton]
    omega

/-! ## The bytes of R151 -/

theorem tag_append_eq_or (k : BitVec 2) (v : BitVec 6) :
    (k ++ v : BitVec 8) = (k ++ 0#6 : BitVec 8) ||| v.setWidth 8 := by
  revert k v; decide

theorem nibbles_append_eq_or (x y : BitVec 4) : (x ++ y : BitVec 8) = x.setWidth 8 <<< 4 ||| y.setWidth 8 := by
  revert x y; decide

theorem diffFields_append_eq_or (x y z : BitVec 2) :
    (0b01#2 ++ x ++ y ++ z : BitVec 8) = 0x40 ||| x.setWidth 8 <<< 4 ||| y.setWidth 8 <<< 2 ||| z.setWidth 8 := by
  revert x y z; decide

/-- A biased quantity in the range of its field is the same number in the byte as in the field (R89). -/
theorem setWidth_rebias (n : Nat) {v : Int} (bias : Int)
    (h : inRange (-bias) (((2 ^ n : Nat) : Int) - 1 - bias) v = true) :
    (rebias n v bias).setWidth 8 = BitVec.ofInt 8 (v + bias) := by
  have hread := unbias_rebias n bias h
  rw [unbias] at hread
  rw [show v + bias = (rebias n v bias).toNat by omega, BitVec.ofInt_natCast, BitVec.ofNat_toNat]

theorem encode_run {run : BitVec 6} (h : run ≠ 0) : encode (.run run.toNat) = [runByte run] := by
  have hpayload : BitVec.ofNat 6 (run.toNat - 1) = run - 1 := by bv_omega
  rw [encode, encodeRun, hpayload, tag_append_eq_or]
  rfl

theorem encodeDiff_eq_diffByte {dr dg db : Int} (h : fitsDiff dr dg db = true) :
    encodeDiff dr dg db = diffByte dr dg db := by
  rw [fitsDiff, Bool.and_eq_true, Bool.and_eq_true] at h
  obtain ⟨⟨hr, hg⟩, hb⟩ := h
  rw [encodeDiff, diffFields_append_eq_or, setWidth_rebias 2 2 hr, setWidth_rebias 2 2 hg, setWidth_rebias 2 2 hb]
  rfl

theorem encodeLuma_eq_lumaBytes {dr dg db : Int} (h : fitsLuma dr dg db = true) :
    encodeLuma dg (dr - dg) (db - dg) = lumaBytes dr dg db := by
  rw [fitsLuma, Bool.and_eq_true, Bool.and_eq_true] at h
  obtain ⟨⟨hg, hr⟩, hb⟩ := h
  rw [encodeLuma, tag_append_eq_or, nibbles_append_eq_or, setWidth_rebias 6 32 hg, setWidth_rebias 4 8 hr,
    setWidth_rebias 4 8 hb]
  rfl

theorem encode_deltaUnit {prev p : Pixel} (alpha : p.a = prev.a) : encode (deltaUnit prev p) = missBytes prev p := by
  simp only [deltaUnit, missBytes, if_pos alpha]
  split_ifs with hdiff hluma
  · exact congrArg (fun b => [b]) (encodeDiff_eq_diffByte hdiff)
  · exact encodeLuma_eq_lumaBytes hluma
  · rfl

theorem encode_encUnit (e : Enc) (p : Pixel) :
    encode (encUnit e p) =
      if readSlot e.cache (indexOf p) = p then [(0b00#2 ++ indexOf p : BitVec 8)] else missBytes e.prev p := by
  simp only [encUnit, cacheHit, beq_iff_eq]
  split_ifs with _ alpha
  · rfl
  · exact encode_deltaUnit alpha
  · rw [missBytes, if_neg alpha]
    rfl

theorem flatMap_encode_pendingRun (e : Enc) :
    (pendingRun e).flatMap encode = if e.run ≠ 0 then [runByte e.run] else [] := by
  have hpos : 0 < e.run ↔ e.run ≠ 0 := e.run.pos_iff_ne_zero
  simp only [pendingRun, hpos]
  split_ifs with hrun
  · exact (List.flatMap_singleton ..).trans (encode_run hrun)
  · rfl

theorem flushesRun_iff (e : Enc) : flushesRun e = true ↔ e.run + 1 = 62 ∨ isLast e = true := by
  rw [flushesRun, Bool.or_eq_true, beq_iff_eq]
  rfl

/-- The bytes of a pixel that repeats `prev` (R152). -/
theorem bytes_of_repeated {e : Enc} (h : e.run.toNat ≤ 61) :
    (encPixelUnits e e.prev).flatMap encode = if flushesRun e then [runByte (e.run + 1)] else [] := by
  have hrun : e.run + 1 ≠ 0 := by bv_omega
  rw [encPixelUnits, if_pos rfl]
  split_ifs
  · exact (List.flatMap_singleton ..).trans (encode_run hrun)
  · rfl

/-- The bytes of a pixel that differs from `prev`: the pending run is flushed first (R154). -/
theorem bytes_of_changed {e : Enc} {p : Pixel} (h : p ≠ e.prev) :
    (encPixelUnits e p).flatMap encode =
      (if e.run ≠ 0 then [runByte e.run] else [])
        ++ if readSlot e.cache (indexOf p) = p then [(0b00#2 ++ indexOf p : BitVec 8)] else missBytes e.prev p := by
  rw [encPixelUnits, if_neg h, List.flatMap_append, flatMap_encode_pendingRun, List.flatMap_singleton, encode_encUnit]

/-- The step of R151, its bytes written out, is the model's step, its bytes encoded from units. -/
theorem pixelStep_eq {e : Enc} (p : Pixel) (h : e.run.toNat ≤ 61) :
    pixelStep e p (isLast e) = (encPixelState e p, (encPixelUnits e p).flatMap encode) := by
  by_cases hrepeat : p = e.prev
  · subst hrepeat
    simp only [pixelStep, ← flushesRun_iff, bytes_of_repeated h, encPixelState, if_true]
    split_ifs <;> rfl
  · simp only [pixelStep, bytes_of_changed hrepeat, encPixelState, encCache, cacheHit, beq_iff_eq, if_neg hrepeat]
    split_ifs <;> rfl

/-- With pixels left to code and one presented ENC's turn is EncPixel (R150). -/
theorem encTurn_of_presented {s : State} {q : Pixel} {more : List Pixel} (hphase : s.enc.phase = .pixels)
    (hmore : s.enc.pos < s.enc.total) (hpin : s.pin = q :: more) : encTurn s = encPixel q (leavePixels more s) := by
  rw [encTurn, if_pos ((encPixelEnabled_iff _).2 ⟨hphase, hmore⟩)]
  simp only [encTake, hpin]

theorem step_of_presented {s : State} {q : Pixel} {more : List Pixel} {rest : List Move}
    (hs : s.agenda = .turn .enc :: rest) (hphase : s.enc.phase = .pixels) (hmore : s.enc.pos < s.enc.total)
    (hpin : s.pin = q :: more) : step s = .next (encPixel q { s with agenda := rest, pin := more }) := by
  rw [step_of_agenda hs]
  exact congrArg Host.Outcome.next (encTurn_of_presented (s := { s with agenda := rest }) hphase hmore hpin)

/-- Settles O35: the turn is EncPixel, and EncPixel on the working pixel is the step of R151. -/
theorem encPixelFollowsR151 : Obligations.EncPixelFollowsR151 := by
  intro s q more rest hs hphase hmore hrun hpin p done
  have hdone : done = (encPixelState s.enc p, (encPixelUnits s.enc p).flatMap encode) := pixelStep_eq p hrun
  rw [step_of_presented hs hphase hmore hpin, hdone]
  rfl

end Sys2Proof.Machine
end

section
/-! PROOFS. The chunks as DEC executes them (spec/43_decoder.md R190 to R201): what each does where it is enabled, what
every unit leaves alone, and the turn that takes it. -/

namespace Sys2Proof.Machine

open Sys2Proof

/-! ## An enabled chunk, kind by kind -/

section
variable {s : State} (hphase : s.dec.phase = .chunks) (hmore : s.dec.count < s.dec.total)
include hphase hmore

theorem whenEnabled_chunk (t : State) : whenEnabled (decChunkEnabled s.dec) t = .next t :=
  whenEnabled_next.2 ⟨(decChunkEnabled_iff _).2 ⟨hphase, hmore⟩, rfl⟩

/-- The four chunks that store their pixel differ in the pixel alone (R198). -/
theorem whenEnabled_postUpdate (p : Pixel) :
    whenEnabled (decChunkEnabled s.dec) (postUpdate p s) = .next
      { s with
        pout := s.pout ++ [⟨p, s.dec.count.toNat + 1 == s.dec.total.toNat⟩]
        dec :=
          { s.dec with
            cache := writeSlot s.dec.cache (indexOf p) p, prev := p, count := s.dec.count + 1 } } := by
  rw [whenEnabled_chunk hphase hmore, postUpdate_eq]

theorem exec_index (idx : Slot) :
    exec (.index idx) s =
      .next (deliver 1 (readSlot s.dec.cache idx) (setPrev (readSlot s.dec.cache idx) s)) :=
  whenEnabled_chunk hphase hmore _

theorem exec_run_of_fits {n : Nat} (hfits : s.dec.count.toNat + n ≤ s.dec.total.toNat) :
    exec (.run n) s = .next (deliver n s.dec.prev s) := by
  rw [exec, execRun, whenEnabled_chunk hphase hmore, if_neg (Nat.not_lt.2 hfits)]

theorem exec_run_of_overrun {n : Nat} (hover : s.dec.total.toNat < s.dec.count.toNat + n) :
    exec (.run n) s = .next (raise .dec .runOverrun s) := by
  rw [exec, execRun, whenEnabled_chunk hphase hmore, if_pos hover]

end

/-- Settles O17: RGBA stores and delivers its own four bytes. -/
theorem rgbaGivesFourRawChannels : Obligations.RgbaGivesFourRawChannels :=
  fun _ r g b a hphase hmore => whenEnabled_postUpdate hphase hmore ⟨r, g, b, a⟩

/-- Settles O18: RGB stores and delivers its three bytes with the alpha of `prev`. -/
theorem rgbKeepsAlpha : Obligations.RgbKeepsAlpha :=
  fun s r g b hphase hmore => whenEnabled_postUpdate hphase hmore ⟨r, g, b, s.dec.prev.a⟩

/-- Settles O22: each channel is a wrapping add. -/
theorem diffAddsWrapping : Obligations.DiffAddsWrapping := fun s dr dg db hphase hmore =>
  ⟨addDeltas s.dec.prev dr dg db, toNat_wrapAdd _ _, toNat_wrapAdd _ _, toNat_wrapAdd _ _, rfl,
    whenEnabled_postUpdate hphase hmore _⟩

/-- Settles O23: the same with the deltas `dg + drg`, `dg` and `dg + dbg`. -/
theorem lumaAddsRelativeToGreen : Obligations.LumaAddsRelativeToGreen := by
  intro s dg drg dbg hphase hmore
  refine ⟨addDeltas s.dec.prev (dg + drg) dg (dg + dbg), ?_, toNat_wrapAdd _ _, ?_, rfl,
    whenEnabled_postUpdate hphase hmore _⟩
  · rw [add_assoc]
    exact toNat_wrapAdd _ _
  · rw [add_assoc]
    exact toNat_wrapAdd _ _

/-- Settles O21: INDEX is enabled, and writes `prev` alone before it delivers. -/
theorem indexReadsAndDoesNotStore : Obligations.IndexReadsAndDoesNotStore := by
  intro s idx hphase hmore p
  rw [exec_index hphase hmore, deliver, pixelUnits_one]
  rfl

/-- Settles O20: past the count RUN is the error alone. -/
theorem runPastTheCountIsAnError : Obligations.RunPastTheCountIsAnError :=
  fun _ _ hphase hmore _ _ hover => exec_run_of_overrun hphase hmore hover

/-- In a delivery that fits the image only the last copy can complete the count (R194). -/
theorem pixelUnits_of_fits {d : Dec} {n : Nat} (p : Pixel) (hpos : 1 ≤ n) (hfits : d.count.toNat + n ≤ d.total.toNat) :
    pixelUnits d n p = List.replicate (n - 1) ⟨p, false⟩ ++ [⟨p, d.count.toNat + n == d.total.toNat⟩] := by
  obtain ⟨m, rfl⟩ : ∃ m, n = m + 1 := ⟨n - 1, by omega⟩
  have hplain : ∀ k ∈ List.range m,
      (⟨p, d.count.toNat + k + 1 == d.total.toNat⟩ : PixelOut) = ⟨p, false⟩ := by
    intro k hk
    have hlt := List.mem_range.1 hk
    rw [beq_eq_false_iff_ne.2 (by omega)]
  rw [pixelUnits, List.range_succ, List.map_append, List.map_congr_left hplain]
  simp [add_assoc]

/-- Settles O19: RUN fits, so it delivers its copies, and only the last can complete the count. -/
theorem runRepeatsPrevious : Obligations.RunRepeatsPrevious := by
  intro s n hphase hmore hpos _ hfits
  rw [exec_run_of_fits hphase hmore hfits, deliver, pixelUnits_of_fits _ hpos hfits, List.append_assoc]

/-! ## What a unit leaves alone -/

/-- Everything a unit can do when it answers a next state, by the unit. -/
inductive Executed (s : State) : Instr → State → Prop
  | headed (w h : Dim) (c sp : Byte) : Executed s (.header w h c sp) (withDec (headerLatched w h c sp s.dec) s)
  | unsupported (w h : Dim) (c sp : Byte) : Executed s (.header w h c sp) (raise .dec .unsupportedChannel s)
  | stored {i : Instr} (p : Pixel) (writes : writesCache i = true) : Executed s i (postUpdate p s)
  | lookedUp (idx : Slot) (p : Pixel) : Executed s (.index idx) (deliver 1 p (setPrev p s))
  | repeated (n : Nat) : Executed s (.run n) (deliver n s.dec.prev s)
  | overran (n : Nat) : Executed s (.run n) (raise .dec .runOverrun s)
  | ended : Executed s .trailer (withDec { s.dec with phase := .done } s)

theorem executed {i : Instr} {s t : State} (h : exec i s = .next t) : Executed s i t := by
  obtain ⟨w, hh, c, sp, rfl, -, -, rfl⟩ | ⟨w, hh, c, sp, rfl, -, -, rfl⟩ | ⟨-, -, hw, p, rfl⟩ | ⟨-, -, idx, rfl, rfl⟩
    | ⟨-, -, n, rfl, -, rfl⟩ | ⟨-, -, n, rfl, -, rfl⟩ | ⟨-, -, rfl, rfl⟩ := exec_next_cases h
  · exact .headed w hh c sp
  · exact .unsupported w hh c sp
  · exact .stored p hw
  · exact .lookedUp idx _
  · exact .repeated n
  · exact .overran n
  · exact .ended

/-- The units that write the cache are chunks, and none is a RUN (R198). -/
theorem chunk_of_writesCache {i : Instr} (h : writesCache i = true) : i.position = .chunk ∧ unitKind i ≠ some .run := by
  cases i with
  | diff | luma | rgb | rgba => exact ⟨rfl, by simp [unitKind]⟩
  | header | index | run | trailer => cases h

section
variable {i : Instr} {s t : State} (h : exec i s = .next t)
include h

/-- No unit touches ENC, the inputs, BOUT or the model's order of moves (R20). -/
theorem exec_leaves_outside :
    t.enc = s.enc ∧ t.pin = s.pin ∧ t.bin = s.bin ∧ t.binEnd = s.binEnd ∧ t.bout = s.bout ∧ t.agenda = s.agenda
      ∧ t.turn = s.turn := by
  cases executed h <;> exact ⟨rfl, rfl, rfl, rfl, rfl, rfl, rfl⟩

/-- Only HEADER writes the header registers and `total` (R112). -/
theorem exec_leaves_header (hi : i.position ≠ .header) :
    t.dec.width = s.dec.width ∧ t.dec.height = s.dec.height ∧ t.dec.channels = s.dec.channels
      ∧ t.dec.colorspace = s.dec.colorspace ∧ t.dec.hdrValid = s.dec.hdrValid ∧ t.dec.total = s.dec.total := by
  cases executed h with
  | headed | unsupported => exact absurd rfl hi
  | stored | lookedUp | repeated | overran | ended => exact ⟨rfl, rfl, rfl, rfl, rfl, rfl⟩

/-- HEADER and TRAILER deliver nothing and leave the running state (R112, R114). -/
theorem exec_framing_leaves_running (hi : i.position ≠ .chunk) :
    t.dec.prev = s.dec.prev ∧ t.dec.cache = s.dec.cache ∧ t.dec.count = s.dec.count ∧ t.pout = s.pout := by
  cases executed h with
  | headed | unsupported | ended => exact ⟨rfl, rfl, rfl, rfl⟩
  | stored _ writes => exact absurd (chunk_of_writesCache writes).1 hi
  | lookedUp | repeated | overran => exact absurd rfl hi

theorem exec_leaves_cache (hw : writesCache i = false) : t.dec.cache = s.dec.cache := by
  cases executed h with
  | headed | unsupported | lookedUp | repeated | overran | ended => rfl
  | stored _ writes => exact absurd hw (by simp [writes])

/-- A unit that stores writes the slot of the pixel that is `prev` from then on (R198). -/
theorem exec_leaves_other_slots (hw : writesCache i = true) {j : Slot} (hj : j ≠ indexOf t.dec.prev) :
    readSlot t.dec.cache j = readSlot s.dec.cache j := by
  cases executed h with
  | stored p => exact readSlot_writeSlot_other s.dec.cache p hj
  | headed | unsupported | lookedUp | repeated | overran | ended => cases hw

theorem exec_run_leaves_prev (hi : unitKind i = some .run) : t.dec.prev = s.dec.prev := by
  cases executed h with
  | repeated | overran => rfl
  | stored _ writes => exact absurd hi (chunk_of_writesCache writes).2
  | headed | unsupported | lookedUp | ended => cases hi

/-- RUN is the one chunk that can raise an error (R201). -/
theorem exec_chunk_leaves_status (hrun : unitKind i ≠ some .run) (hi : i.position = .chunk) :
    t.dec.phase = s.dec.phase ∧ t.dec.err = s.dec.err := by
  cases executed h with
  | stored | lookedUp => exact ⟨rfl, rfl⟩
  | repeated | overran => exact absurd rfl hrun
  | headed | unsupported | ended => cases hi

end

/-- Settles O25, clause by clause. -/
theorem unitsLeaveTheRestAlone : Obligations.UnitsLeaveTheRestAlone := fun _ _ _ h =>
  ⟨exec_leaves_outside h, exec_leaves_header h, exec_framing_leaves_running h, exec_leaves_cache h,
    fun hw _ hj => exec_leaves_other_slots h hw hj, exec_run_leaves_prev h, exec_chunk_leaves_status h⟩

/-! ## The turn that takes a unit -/

theorem decPosition_of_enabledAt {pos : Position} {d : Dec} (h : enabledAt pos d = true) : decPosition d = some pos := by
  cases pos with
  | header => exact decPosition_of_header ((decHeaderEnabled_iff d).1 h)
  | chunk =>
    obtain ⟨hphase, -⟩ := (decChunkEnabled_iff d).1 h
    have hchunk : decChunkEnabled d = true := h
    simp [decPosition, decHeaderEnabled, hphase, hchunk]
  | trailer =>
    obtain ⟨hphase, hall⟩ := (decTrailerEnabled_iff d).1 h
    exact decPosition_of_allDelivered hphase hall

/-- Settles O43: by the agenda or by the alternation, DEC's turn fetches at the enabled position. -/
theorem stepRunsTheDecodedUnit : Obligations.StepRunsTheDecodedUnit := by
  constructor
  · intro s rest pos i left hs henabled hdecode
    exact step_of_decode_ok hs (decPosition_of_enabledAt henabled) hdecode
  · intro s pos i left hs hturn henabled hdecode
    rw [step_of_idleAgenda hs, hturn]
    simp only [contextTurn, decTurn, decPosition_of_enabledAt henabled, decFetch, hdecode]
    rfl

theorem decode_chunk_short {bs : List Byte}
    (h : bs = [] ∨ ∃ t more, bs = t :: more ∧ more.length + 1 < chunkLength (tagKind t)) :
    decode .chunk bs = .error .short := by
  obtain rfl | ⟨t, more, rfl, hlen⟩ := h
  · rfl
  · exact (chunkLengthIsTheTags.2 t more).1 hlen

/-- Settles O27: the bytes left are short of a chunk, and the input has ended. -/
theorem truncatedChunkIsAnError : Obligations.TruncatedChunkIsAnError := by
  intro s rest hs hphase hmore hend hbytes
  have henabled : enabledAt .chunk s.dec = true := (decChunkEnabled_iff _).2 ⟨hphase, hmore⟩
  rw [step_of_decode_short hs (decPosition_of_enabledAt henabled) (decode_chunk_short hbytes), if_pos hend]

end Sys2Proof.Machine
end

section
/-! PROOFS. Lockstep of the two contexts (spec/43_decoder.md R203): DEC, executing the units ENC emits for a pixel, comes
to stand where ENC then stands. -/

namespace Sys2Proof.Machine

open Sys2Proof

/-! ## Units one after another -/

theorem execUnits_cons {i : Instr} {is : List Instr} {s t : State} (h : exec i s = .next t) :
    execUnits (i :: is) s = execUnits is t := by
  simp only [execUnits, h]

theorem execUnits_cons_next {i : Instr} {is : List Instr} {s t : State} (h : execUnits (i :: is) s = .next t) :
    ∃ u, exec i s = .next u ∧ execUnits is u = .next t := by
  cases hi : exec i s with
  | next u => exact ⟨u, rfl, by rwa [execUnits_cons hi] at h⟩
  | fault r => cases r
  | refused r => simp [execUnits, hi] at h

theorem execUnits_append {is js : List Instr} {s t u : State} (h : execUnits is s = .next t)
    (h' : execUnits js t = .next u) : execUnits (is ++ js) s = .next u := by
  induction is generalizing s with
  | nil =>
    cases h
    exact h'
  | cons i is ih =>
    obtain ⟨v, hv, hrest⟩ := execUnits_cons_next h
    rw [List.cons_append, execUnits_cons hv, ih hrest]

/-! ## Decoding the unit of a pixel -/

/-- The deltas from `q` to `p`, added to `q`, give `p`, when they have the same alpha (R133). -/
theorem addDeltas_delta8 {p q : Pixel} (alpha : p.a = q.a) :
    addDeltas q (delta8 p.r q.r) (delta8 p.g q.g) (delta8 p.b q.b) = p := by
  rw [addDeltas, wrapAdd_delta8, wrapAdd_delta8, wrapAdd_delta8, ← alpha]

/-- Whichever of DIFF, LUMA and RGB is chosen, it stores and delivers the pixel it was chosen for. -/
theorem exec_deltaUnit {s : State} {p : Pixel} (alpha : p.a = s.dec.prev.a) :
    exec (deltaUnit s.dec.prev p) s = whenEnabled (decChunkEnabled s.dec) (postUpdate p s) := by
  simp only [deltaUnit]
  split_ifs
  · rw [exec, execDiff, addDeltas_delta8 alpha]
  · rw [exec, execLuma, add_sub_cancel, add_sub_cancel, addDeltas_delta8 alpha]
  · rw [exec, execRgb, ← alpha]

section
variable {e : Enc} {s : State} (hphase : s.dec.phase = .chunks) (hprev : s.dec.prev = e.prev)
  (hcache : s.dec.cache = e.cache)
include hphase hprev hcache

/-- With ENC's `prev` and cache, DEC takes from the unit of a pixel that very pixel, and its cache goes as ENC's. -/
theorem exec_encUnit (hmore : s.dec.count < s.dec.total) (p : Pixel) :
    exec (encUnit e p) s = .next (deliver 1 p (withDec { s.dec with cache := encCache e p, prev := p } s)) := by
  rw [encUnit, encCache, cacheHit, ← hprev, ← hcache]
  by_cases hit : readSlot s.dec.cache (indexOf p) = p
  · rw [if_pos (beq_iff_eq.2 hit), if_pos (beq_iff_eq.2 hit), exec_index hphase hmore, hit]
    rfl
  · rw [if_neg (mt beq_iff_eq.1 hit), if_neg (mt beq_iff_eq.1 hit)]
    split_ifs with alpha
    · rw [exec_deltaUnit alpha, whenEnabled_chunk hphase hmore]
      rfl
    · exact whenEnabled_chunk hphase hmore _

end

theorem deliver_zero (p : Pixel) (s : State) : deliver 0 p s = s := by
  simp [deliver, pixelUnits]

/-- The pending run, if there is one, is delivered whole (R154). -/
theorem execUnits_pendingRun {e : Enc} {s : State} (hphase : s.dec.phase = .chunks) (hprev : s.dec.prev = e.prev)
    (hmore : s.dec.count.toNat + e.run.toNat < s.dec.total.toNat) :
    execUnits (pendingRun e) s = .next (deliver e.run.toNat e.prev s) := by
  have hlt : s.dec.count < s.dec.total := BitVec.lt_def.2 (by omega)
  rw [pendingRun]
  split_ifs with hrun
  · rw [execUnits_cons (exec_run_of_fits hphase hlt hmore.le), hprev]
    rfl
  · have hzero : e.run.toNat = 0 := by bv_omega
    rw [hzero, deliver_zero]
    rfl

/-! ## Following ENC -/

/-- What chunks that raise no error leave alone: the state but for DEC's running state and what it delivers. -/
def chunkFrame (s : State) : State :=
  { s with dec := { s.dec with prev := Pixel.opaqueBlack, cache := emptyCache, count := 0 }, pout := [] }

/-- While ENC has gone from `e` to `e'` by the pixels `ps`, DEC has gone from `s` to `t` in lockstep: the pixels are
delivered, or pending in ENC. -/
structure Follows (e e' : Enc) (ps : List Pixel) (s t : State) : Prop where
  lockstep : inLockstep e' t.dec
  pixels : pixelsOut t ++ pendingPixels e' = pixelsOut s ++ pendingPixels e ++ ps
  frame : chunkFrame t = chunkFrame s

theorem Follows.refl {e : Enc} {s : State} (h : inLockstep e s.dec) : Follows e e [] s s :=
  ⟨h, (List.append_nil _).symm, rfl⟩

theorem Follows.trans {e e' e'' : Enc} {ps qs : List Pixel} {s t u : State} (h : Follows e e' ps s t)
    (h' : Follows e' e'' qs t u) : Follows e e'' (ps ++ qs) s u :=
  ⟨h'.lockstep, by rw [h'.pixels, h.pixels, List.append_assoc], h'.frame.trans h.frame⟩

theorem pixelsOut_deliver (n : Nat) (p : Pixel) (s : State) :
    pixelsOut (deliver n p s) = pixelsOut s ++ List.replicate n p := by
  simp [pixelsOut]

section
variable {e : Enc} {s : State} (h : inLockstep e s.dec) (hmore : e.pos < e.total)
include h hmore

/-- A pixel that repeats `prev` is counted, or flushed with the run it completes (R152). -/
theorem follows_repeated (hrun : e.run.toNat ≤ 61) :
    ∃ t, execUnits (encPixelUnits e e.prev) s = .next t ∧ Follows e (encPixelState e e.prev) [e.prev] s t := by
  obtain ⟨hphase, hprev, hcache, htotal, hcount⟩ := h
  have hpos : e.pos.toNat < e.total.toNat := hmore
  have hpos' : (e.pos + 1).toNat = e.pos.toNat + 1 := by bv_omega
  have hrun' : (e.run + 1).toNat = e.run.toNat + 1 := by bv_omega
  simp only [encPixelUnits, encPixelState, if_true]
  cases flushesRun e with
  | true =>
    have hfits : s.dec.count.toNat + (e.run + 1).toNat ≤ s.dec.total.toNat := by rw [htotal]; omega
    have hlt : s.dec.count < s.dec.total := BitVec.lt_def.2 (by omega)
    refine ⟨_, execUnits_cons (exec_run_of_fits hphase hlt hfits), ⟨hphase, hprev, hcache, htotal, ?_⟩, ?_, rfl⟩
    · change (s.dec.count + BitVec.ofNat 64 (e.run + 1).toNat).toNat + 0 = (e.pos + 1).toNat
      rw [toNat_add_of_fits hfits]
      omega
    · rw [pixelsOut_deliver, hprev, hrun', List.replicate_succ']
      simp [pendingPixels]
  | false =>
    refine ⟨s, rfl, ⟨hphase, hprev, hcache, htotal, ?_⟩, ?_, rfl⟩
    · simp only [Bool.false_eq_true, if_false]
      omega
    · simp only [pendingPixels, Bool.false_eq_true, if_false, hrun', List.replicate_succ', List.append_assoc]

/-- A pixel that differs from `prev` is delivered after the run that was pending (R154). -/
theorem follows_changed {p : Pixel} (changes : p ≠ e.prev) :
    ∃ t, execUnits (encPixelUnits e p) s = .next t ∧ Follows e (encPixelState e p) [p] s t := by
  obtain ⟨hphase, hprev, hcache, htotal, hcount⟩ := h
  have hpos : e.pos.toNat < e.total.toNat := hmore
  have hpos' : (e.pos + 1).toNat = e.pos.toNat + 1 := by bv_omega
  have hfits : s.dec.count.toNat + e.run.toNat < s.dec.total.toNat := by rw [htotal]; omega
  have hflushed := toNat_add_of_fits hfits.le
  have hunit := exec_encUnit (s := deliver e.run.toNat e.prev s) hphase hprev hcache
    (BitVec.lt_def.2 (hflushed.trans_lt hfits)) p
  simp only [encPixelUnits, encPixelState, if_neg changes]
  refine ⟨_, execUnits_append (execUnits_pendingRun hphase hprev hfits) (execUnits_cons hunit),
    ⟨hphase, rfl, rfl, htotal, ?_⟩, ?_, rfl⟩
  · have hone : (s.dec.count + BitVec.ofNat 64 e.run.toNat).toNat + 1 ≤ s.dec.total.toNat := by omega
    change (s.dec.count + BitVec.ofNat 64 e.run.toNat + BitVec.ofNat 64 1).toNat + 0 = (e.pos + 1).toNat
    rw [toNat_add_of_fits hone]
    omega
  · simp [pixelsOut, pendingPixels]

theorem follows_pixel (hrun : e.run.toNat ≤ 61) (p : Pixel) :
    ∃ t, execUnits (encPixelUnits e p) s = .next t ∧ Follows e (encPixelState e p) [p] s t := by
  by_cases hrepeat : p = e.prev
  · subst hrepeat
    exact follows_repeated h hmore hrun
  · exact follows_changed h hmore hrepeat

end

/-- Settles O54: a pixel that repeats `prev`, or one that differs. -/
theorem onePixelKeepsLockstep : Obligations.OnePixelKeepsLockstep := by
  intro e s p h hrun hmore
  obtain ⟨t, hunits, hfollows⟩ := follows_pixel h hmore hrun p
  exact ⟨t, hunits, hfollows.lockstep, hfollows.pixels⟩

end Sys2Proof.Machine
end

section
/-! PROOFS. The round trip (spec/43_decoder.md R202): the bytes of an encode call, and the decode call that takes them,
unit by unit. -/

namespace Sys2Proof.Machine

open Sys2Proof

/-! ## A whole image, pixel by pixel -/

/-- When the last pixel is coded, the count is complete and no run is pending (R113). -/
theorem coded_all {e : Enc} {ps : List Pixel} (hcall : encCallInv e) (hphase : e.phase = .pixels)
    (hlen : e.pos.toNat + ps.length = e.total.toNat) :
    (ps.foldl encPixelState e).phase = .pixels
      ∧ (ps.foldl encPixelState e).pos = (ps.foldl encPixelState e).total ∧ (ps.foldl encPixelState e).run = 0 := by
  induction ps generalizing e with
  | nil =>
    have hall : e.pos = e.total := BitVec.eq_of_toNat_eq hlen
    obtain ⟨-, -, -, hflushed, -⟩ := hcall
    exact ⟨hphase, hall, hflushed hall⟩
  | cons p ps ih =>
    rw [List.length_cons] at hlen
    refine ih (encCallInv_coded hcall hphase p) (by rw [encPixelState_phase, hphase]) ?_
    rw [encPixelState_pos, encPixelState_total]
    bv_omega

/-- DEC follows ENC through any pixels that fit the image (R203). -/
theorem follows_pixels {e : Enc} {s : State} {ps : List Pixel} (h : inLockstep e s.dec) (hrun : e.run.toNat ≤ 61)
    (hlen : e.pos.toNat + ps.length ≤ e.total.toNat) :
    ∃ t, execUnits (unitsOfPixels e ps) s = .next t ∧ Follows e (ps.foldl encPixelState e) ps s t := by
  induction ps generalizing e s with
  | nil => exact ⟨s, rfl, .refl h⟩
  | cons p ps ih =>
    rw [List.length_cons] at hlen
    obtain ⟨t, hunits, hfollows⟩ := follows_pixel h (BitVec.lt_def.2 (by omega)) hrun p
    have hlen' : (encPixelState e p).pos.toNat + ps.length ≤ (encPixelState e p).total.toNat := by
      rw [encPixelState_pos, encPixelState_total]
      bv_omega
    obtain ⟨u, hunits', hfollows'⟩ := ih hfollows.lockstep (run_le_coded hrun p) hlen'
    exact ⟨u, execUnits_append hunits hunits', hfollows.trans hfollows'⟩

theorem chunks_of_pixels {e : Enc} {ps : List Pixel} (hrun : e.run.toNat ≤ 61) :
    ∀ i ∈ unitsOfPixels e ps, i.WellFormed ∧ i.position = .chunk := by
  induction ps generalizing e with
  | nil => exact nofun
  | cons p ps ih =>
    intro i hi
    obtain hfirst | hlater := List.mem_append.1 hi
    · exact encoderUnitsAreWellFormed e p hrun i hfirst
    · exact ih (run_le_coded hrun p) i hlater

/-- How many RUN chunks ENC owes: one while a run is pending (R154). -/
def owedRuns (e : Enc) : Nat := (pendingRun e).length

/-- A pixel adds one unit at most to those put out and owed. -/
theorem length_encPixelUnits_add_owed (e : Enc) (p : Pixel) :
    (encPixelUnits e p).length + owedRuns (encPixelState e p) ≤ owedRuns e + 1 := by
  unfold encPixelUnits encPixelState owedRuns
  split_ifs
  · simp [pendingRun]
  · simp only [pendingRun]
    split_ifs <;> simp
  · simp [pendingRun]

/-- Pixels need no more units than there are of them, but for a run pending before. -/
theorem length_unitsOfPixels_le (e : Enc) (ps : List Pixel) : (unitsOfPixels e ps).length ≤ owedRuns e + ps.length := by
  induction ps generalizing e with
  | nil => exact Nat.zero_le _
  | cons p ps ih =>
    have hpixel := length_encPixelUnits_add_owed e p
    have hlater := ih (encPixelState e p)
    rw [unitsOfPixels, List.length_append, List.length_cons]
    omega

/-! ## The encode call -/

/-- The units of a call's chunks. -/
def callUnits (w h : Dim) (c sp : Byte) (ps : List Pixel) : List Instr :=
  unitsOfPixels (encStarted w h c sp) (ps.map (workingPixel c))

/-- The bytes of a whole call: header, chunks, trailer (R80). -/
def callBytes (w h : Dim) (c sp : Byte) (ps : List Pixel) : List Byte :=
  encode (.header w h c sp) ++ ((callUnits w h c sp ps).flatMap encode ++ encode .trailer)

theorem plainBytes_append (bs bs' : List Byte) : plainBytes (bs ++ bs') = plainBytes bs ++ plainBytes bs' :=
  List.map_append

/-- `s` with these moves to come and these pixels on PIN. -/
def withPixels (agenda : List Move) (qs : List Pixel) (s : State) : State := { s with agenda := agenda, pin := qs }

/-- `s` after ENC has coded the working pixels `ps`. -/
def afterPixels (ps : List Pixel) (s : State) : State :=
  { s with
    enc := ps.foldl encPixelState s.enc
    bout := s.bout ++ plainBytes ((unitsOfPixels s.enc ps).flatMap encode) }

theorem afterPixels_encPixel (q : Pixel) (ps : List Pixel) (s : State) :
    afterPixels ps (encPixel q s) = afterPixels (workingPixel s.enc.channels q :: ps) s := by
  simp [afterPixels, encPixel, emitBytes, withEnc, unitsOfPixels, plainBytes_append]

/-- ENC's turns on the pixels presented, one for each. -/
theorem run_pixelTurns {s : State} {qs : List Pixel} (hphase : s.enc.phase = .pixels)
    (hlen : s.enc.pos.toNat + qs.length ≤ s.enc.total.toNat) (rest : List Move) :
    Host.Core.run core qs.length (withPixels (List.replicate qs.length (.turn .enc) ++ rest) qs s)
      = .next (withPixels rest [] (afterPixels (qs.map (workingPixel s.enc.channels)) s)) := by
  induction qs generalizing s with
  | nil => simp [run_zero, withPixels, afterPixels, unitsOfPixels, plainBytes]
  | cons q qs ih =>
    rw [List.length_cons] at hlen
    have hlen' : (encPixel q s).enc.pos.toNat + qs.length ≤ (encPixel q s).enc.total.toNat := by
      simp only [encPixel, emitBytes_enc, withEnc_enc, encPixelState_pos, encPixelState_total]
      bv_omega
    have hmore : s.enc.pos < s.enc.total := BitVec.lt_def.2 (by omega)
    have hlater := ih ((encPixelState_phase _ _).trans hphase) hlen'
    rw [afterPixels_encPixel] at hlater
    simp only [encPixel, emitBytes_enc, withEnc_enc, encPixelState_channels] at hlater
    exact run_succ_iff.2 ⟨_, step_of_presented rfl hphase hmore rfl, hlater⟩

theorem encStarted_lengths {w h : Dim} {c sp : Byte} {ps : List Pixel} (hlen : ps.length = w.toNat * h.toNat) :
    (encStarted w h c sp).pos.toNat + ps.length = (encStarted w h c sp).total.toNat :=
  (Nat.zero_add _).trans (hlen.trans (totalIsTheFullProduct w h).symm)

/-- `s` after an accepted `EncStart`. -/
def afterEncStart (w h : Dim) (c sp : Byte) (s : State) : State :=
  { s with enc := encStarted w h c sp, bout := s.bout ++ plainBytes (encode (.header w h c sp)) }

/-- An encode call ends with its bytes. -/
theorem run_encodeCall {s : State} {w h : Dim} {c sp : Byte} {ps : List Pixel} (hc : c = 3 ∨ c = 4)
    (hlen : ps.length = w.toNat * h.toNat) (hfree : encBusy s.enc = false) (hpin : s.pin = [])
    (hs : s.agenda = encodeCall w h c sp ps) :
    ∃ s', Host.Core.run core (ps.length + 3) s = .next s'
      ∧ encodeResult s s' = .finished (callBytes w h c sp ps) := by
  have hphase : (encStarted w h c sp).phase = .pixels := by rw [encStarted_of_legal w h sp hc]
  have hstart : Host.Core.run core 2 s =
      .next (withPixels (List.replicate ps.length (.turn .enc) ++ [.turn .enc]) ps (afterEncStart w h c sp s)) := by
    refine run_two_of_steps (step_of_encStart_accepted hs hfree hc) ?_
    rw [step_of_agenda rfl, ← List.replicate_succ']
    simp [performMove, presentPixels, hpin, withPixels, afterEncStart]
  have hpixels := run_pixelTurns (s := afterEncStart w h c sp s) hphase (encStarted_lengths hlen).le [.turn .enc]
  obtain ⟨hphase', hall, -⟩ := coded_all (ps := ps.map (workingPixel c)) (encCallInv_started w h c sp) hphase
    (encStarted_lengths ((List.length_map _).trans hlen))
  have hfinish := run_one_iff.2 (step_of_allCoded
    (s := withPixels [.turn .enc] [] (afterPixels (ps.map (workingPixel c)) (afterEncStart w h c sp s)))
    rfl hphase' hall)
  refine ⟨_, (congrArg (Host.Core.run core · s) (by omega)).trans (run_add hstart (run_add hpixels hfinish)), ?_⟩
  simp only [encodeResult, withPixels, afterPixels, afterEncStart, List.append_assoc, List.drop_left,
    List.map_append, byte_plainBytes, byte_finalBytes]
  rfl

/-! ## The decode call -/

/-- `s` with these moves to come and these bytes on BIN. -/
def withInput (agenda : List Move) (bs : List Byte) (s : State) : State := { s with agenda := agenda, bin := bs }

/-- The meaning of a unit depends on neither (log 2; spec/43_decoder.md R191). -/
theorem exec_withInput (i : Instr) (agenda : List Move) (bs : List Byte) (s : State) :
    exec i (withInput agenda bs s) = mapNext (withInput agenda bs) (exec i s) := by
  cases i with
  | header w h c sp => cases hc : Config.legalChannels c <;> simp [exec, execHeader, hc] <;> rfl
  | run n =>
    by_cases hn : s.dec.total.toNat < s.dec.count.toNat + n <;> simp [exec, execRun, withInput, hn] <;> rfl
  | index | diff | luma | rgb | rgba | trailer =>
    symm
    exact mapNext_whenEnabled _ _ _

/-- DEC's turns on the bytes of chunks are the chunks executed, one after another. -/
theorem run_chunkTurns {is : List Instr} {s t : State} (hchunks : ∀ i ∈ is, i.WellFormed ∧ i.position = .chunk)
    (h : execUnits is s = .next t) (rest : List Move) (more : List Byte) :
    Host.Core.run core is.length
        (withInput (List.replicate is.length (.turn .dec) ++ rest) (is.flatMap encode ++ more) s)
      = .next (withInput rest more t) := by
  induction is generalizing s with
  | nil =>
    cases h
    rfl
  | cons i is ih =>
    obtain ⟨v, hi, his⟩ := execUnits_cons_next h
    obtain ⟨hwf, hpos⟩ := hchunks i List.mem_cons_self
    obtain ⟨hphase, hmore, -⟩ := exec_chunk_cases hpos hi
    refine run_succ_iff.2 ⟨_, ?_, ih (fun j hj => hchunks j (List.mem_cons_of_mem _ hj)) his⟩
    have hdecode := decodeInvertsEncode i (is.flatMap encode ++ more) hwf
    rw [hpos, ← List.append_assoc, ← List.flatMap_cons] at hdecode
    have henabled : enabledAt .chunk s.dec = true := (decChunkEnabled_iff _).2 ⟨hphase, hmore⟩
    refine (step_of_decode_ok (s := withInput _ _ s) rfl (decPosition_of_enabledAt henabled) hdecode).trans ?_
    exact (exec_withInput i _ _ s).trans (congrArg (mapNext _) hi)

/-- At rest DEC's turns change nothing (R234, R244). -/
theorem run_idleTurns {s : State} {n : Nat} (hs : s.agenda = List.replicate n (.turn .dec))
    (hrest : decPosition s.dec = none) : Host.Core.run core n s = .next { s with agenda := [] } := by
  induction n generalizing s with
  | zero => rw [run_zero, ← List.replicate_zero (a := Move.turn .dec), ← hs]
  | succ n ih =>
    refine run_succ_iff.2 ⟨{ s with agenda := List.replicate n (.turn .dec) }, ?_, ih rfl hrest⟩
    rw [step_of_agenda hs]
    simp [performMove, contextTurn, decTurn, hrest]

/-- `u` after an accepted `DecStart`, and `bin_end` raised or not. -/
def afterDecStart (ended : Bool) (u : State) : State := { u with dec := decStarted, binEnd := ended }

/-- `u` after the start, the end of the input and the turn that takes the header. -/
def afterHeader (w h : Dim) (c sp : Byte) (u : State) : State :=
  { u with dec := headerLatched w h c sp decStarted, binEnd := true }

/-- The first four steps of a decode call: start, bytes, end of input, header. -/
theorem run_toHeader {u : State} {w h : Dim} {c sp : Byte} (hc : c = 3 ∨ c = 4) (hfree : decBusy u.dec = false)
    (hbin : u.bin = []) {left : List Byte} {n : Nat}
    (hu : u.agenda = decodeCall (encode (.header w h c sp) ++ left) (n + 1)) :
    Host.Core.run core 4 u = .next (withInput (List.replicate n (.turn .dec)) left (afterHeader w h c sp u)) := by
  generalize hbs : encode (.header w h c sp) ++ left = bs at hu
  have hstart : step u = .next (withInput (.bytes bs :: .endBytes :: List.replicate (n + 1) (.turn .dec)) []
      (afterDecStart false u)) := by
    rw [step_of_agenda hu]
    simp [performMove, decStart_eq, hfree, withInput, afterDecStart, hbin]
  have hbytes (ms : List Move) : step (withInput (.bytes bs :: ms) [] (afterDecStart false u)) =
      .next (withInput ms bs (afterDecStart false u)) := (step_of_agenda rfl).trans rfl
  have hend (ms : List Move) : step (withInput (.endBytes :: ms) bs (afterDecStart false u)) =
      .next (withInput ms bs (afterDecStart true u)) := (step_of_agenda rfl).trans rfl
  have hheader : step (withInput (.turn .dec :: List.replicate n (.turn .dec)) bs (afterDecStart true u)) =
      .next (withInput (List.replicate n (.turn .dec)) left (afterHeader w h c sp u)) := by
    have hdecode : decode .header bs = .ok (.header w h c sp, left) := hbs ▸ decodeHeader_encode w h c sp left
    refine (step_of_decode_header (s := withInput _ bs (afterDecStart true u)) rfl rfl hdecode).trans ?_
    rw [if_pos hc, ← pixelTotal_eq_ofNat]
    rfl
  exact run_add (run_two_of_steps hstart (hbytes _)) (run_two_of_steps (hend _) hheader)

/-- After the header both contexts stand at the start of the image. -/
theorem inLockstep_started (w h : Dim) (c sp : Byte) :
    inLockstep (encStarted w h c sp) (headerLatched w h c sp decStarted) := ⟨rfl, rfl, rfl, rfl, rfl⟩

theorem pendingPixels_of_flushed {e : Enc} (h : e.run = 0) : pendingPixels e = [] := by
  simp [pendingPixels, h]

/-- The chunks of the call, executed after its header, deliver the image, and the count is complete. -/
theorem execUnits_callUnits (u : State) {w h : Dim} {c sp : Byte} {ps : List Pixel} (hc : c = 3 ∨ c = 4)
    (hlen : ps.length = w.toNat * h.toNat) :
    ∃ t, execUnits (callUnits w h c sp ps) (afterHeader w h c sp u) = .next t
      ∧ t.dec.phase = .chunks ∧ t.dec.count = t.dec.total
      ∧ pixelsOut t = pixelsOut u ++ ps.map (workingPixel c)
      ∧ chunkFrame t = chunkFrame (afterHeader w h c sp u) := by
  have hphase : (encStarted w h c sp).phase = .pixels := by rw [encStarted_of_legal w h sp hc]
  have hlen' := encStarted_lengths (c := c) (sp := sp) ((List.length_map (workingPixel c)).trans hlen)
  obtain ⟨-, hall, hflushed⟩ := coded_all (encCallInv_started w h c sp) hphase hlen'
  obtain ⟨t, hunits, ⟨hchunks, -, -, htotal, hcount⟩, hpixels, hframe⟩ :=
    follows_pixels (s := afterHeader w h c sp u) (inLockstep_started w h c sp) (Nat.zero_le _) hlen'.le
  refine ⟨t, hunits, hchunks, ?_, ?_, hframe⟩
  · rw [hflushed] at hcount
    rw [htotal, ← hall]
    exact BitVec.eq_of_toNat_eq hcount
  · rw [pendingPixels_of_flushed hflushed, pendingPixels_of_flushed rfl, List.append_nil, List.append_nil] at hpixels
    exact hpixels

/-- A decode call of an encode call's bytes ends with the header's values and the working pixels. -/
theorem run_decodeCall {u : State} {w h : Dim} {c sp : Byte} {ps : List Pixel} (hc : c = 3 ∨ c = 4)
    (hlen : ps.length = w.toNat * h.toNat) (hfree : decBusy u.dec = false) (hbin : u.bin = [])
    (hu : u.agenda = decodeCall (callBytes w h c sp ps) (ps.length + 2)) :
    ∃ u', Host.Core.run core (ps.length + 5) u = .next u'
      ∧ decodeResult u u' = .finished (ps.map (workingPixel c))
      ∧ u'.dec.err = .none ∧ u'.bin = []
      ∧ u'.dec.width = w ∧ u'.dec.height = h ∧ u'.dec.channels = c ∧ u'.dec.colorspace = sp := by
  obtain ⟨t, hunits, hphase, hall, hpixels, hframe⟩ := execUnits_callUnits u (sp := sp) hc hlen
  have hfew : (callUnits w h c sp ps).length ≤ ps.length :=
    (length_unitsOfPixels_le _ _).trans_eq ((Nat.zero_add _).trans (List.length_map _))
  obtain ⟨idle, hidle⟩ := Nat.exists_eq_add_of_le hfew
  have hheader := run_toHeader hc hfree hbin hu
  rw [hidle, add_assoc, List.replicate_add, List.replicate_succ] at hheader
  have hchunks := run_chunkTurns (is := callUnits w h c sp ps) (chunks_of_pixels (Nat.zero_le _)) hunits
    (.turn .dec :: List.replicate idle (.turn .dec)) (encode .trailer)
  have htrailer := run_one_iff.2 (step_of_decode_trailer
    (s := withInput (.turn .dec :: List.replicate idle (.turn .dec)) (encode .trailer) t) rfl hphase hall rfl)
  have hidleTurns := run_idleTurns (n := idle)
    (s := { t with agenda := List.replicate idle (.turn .dec), bin := [], dec := { t.dec with phase := .done } })
    rfl rfl
  refine ⟨_, (congrArg (Host.Core.run core · u) (by omega)).trans
    (run_add hheader (run_add hchunks (run_add htrailer hidleTurns))), ?_, congrArg (·.dec.err) hframe, rfl,
    congrArg (·.dec.width) hframe, congrArg (·.dec.height) hframe, congrArg (·.dec.channels) hframe,
    congrArg (·.dec.colorspace) hframe⟩
  have hdelivered : (t.pout.drop u.pout.length).map PixelOut.pixel = ps.map (workingPixel c) := by
    rw [List.map_drop]
    exact (congrArg _ hpixels).trans (List.drop_left' (List.length_map _))
  exact congrArg CallResult.finished hdelivered

/-- Settles O55: the encode call ends with `callBytes`, and the decode call takes them. -/
theorem decodeOfEncodeGivesTheImageBack : Obligations.DecodeOfEncodeGivesTheImageBack := by
  intro s u w h c sp ps hc hlen hencFree hpin hdecFree hbin hs
  obtain ⟨s', hrun, hresult⟩ := run_encodeCall hc hlen hencFree hpin hs
  exact ⟨s', _, hrun, hresult, run_decodeCall hc hlen hdecFree hbin⟩

end Sys2Proof.Machine
end

section
/-! PROOFS. Errors and rest (spec/60_exceptions.md R230 to R244): the bytes a read fails on, the code each failure
raises, what raising it leaves alone, and the moves that are refused. -/

namespace Sys2Proof.Machine

open Sys2Proof

/-! ## What the bytes were, from how they decode -/

theorem length_of_decode_header_short {bs : List Byte} (h : decode .header bs = .error .short) :
    bs.length < 14 ∧ (bs.length < 4 ∨ bs.take 4 = [0x71, 0x6F, 0x69, 0x66]) := by
  rw [decode, decodeHeader_eq] at h
  split_ifs at h with h4 hmagic h14
  · exact ⟨by omega, .inl h4⟩
  · cases h
  · exact ⟨h14, .inr (not_not.1 hmagic)⟩

theorem bytes_of_decode_header {bs rest : List Byte} {w h : Dim} {c sp : Byte}
    (hdecode : decode .header bs = .ok (.header w h c sp, rest)) :
    14 ≤ bs.length ∧ bs.take 4 = [0x71, 0x6F, 0x69, 0x66] ∧ c = bs.getD 12 0 ∧ rest = bs.drop 14 := by
  rw [decode, decodeHeader_eq] at hdecode
  split_ifs at hdecode with h4 hmagic h14
  cases hdecode
  exact ⟨Nat.le_of_not_lt h14, not_not.1 hmagic, rfl, rfl⟩

/-- A chunk with its tag byte there is short, or is read as a unit of the tag's kind (R191). -/
theorem decode_chunk_cons_cases (b : Byte) (more : List Byte) :
    (more.length + 1 < chunkLength (tagKind b) ∧ decode .chunk (b :: more) = .error .short)
      ∨ ∃ i rest, decode .chunk (b :: more) = .ok (i, rest) ∧ unitKind i = some (tagKind b) := by
  obtain ⟨hshort, hlong⟩ := chunkLengthIsTheTags.2 b more
  obtain hlt | hge := Nat.lt_or_ge (more.length + 1) (chunkLength (tagKind b))
  · exact .inl ⟨hlt, hshort hlt⟩
  · obtain ⟨i, hdecode, hkind⟩ := hlong hge
    exact .inr ⟨i, _, hdecode, hkind⟩

/-- The converse of `decode_chunk_short`. -/
theorem short_of_decode_chunk {bs : List Byte} (h : decode .chunk bs = .error .short) :
    bs = [] ∨ ∃ b more, bs = b :: more ∧ more.length + 1 < chunkLength (tagKind b) := by
  cases bs with
  | nil => exact .inl rfl
  | cons b more =>
    obtain ⟨hlt, -⟩ | ⟨i, rest, hdecode, -⟩ := decode_chunk_cons_cases b more
    · exact .inr ⟨b, more, rfl, hlt⟩
    · cases hdecode.symm.trans h

/-- A RUN is read from its tag byte alone, whose low six bits are the run less one (R86). -/
theorem byte_of_decode_run {bs rest : List Byte} {n : Nat} (h : decode .chunk bs = .ok (.run n, rest)) :
    ∃ b, bs = b :: rest ∧ tagKind b = .run ∧ n = b.toNat % 64 + 1 := by
  cases bs with
  | nil => cases h
  | cons b more =>
    have hkind : tagKind b = .run := by
      obtain ⟨-, hdecode⟩ | ⟨i, left, hdecode, hi⟩ := decode_chunk_cons_cases b more <;> cases hdecode.symm.trans h
      exact (Option.some.inj hi).symm
    simp only [decode_chunk_cons, decodeTagged, hkind] at h
    cases h
    exact ⟨b, rfl, hkind, by rw [toNat_bitField]; simp⟩

theorem length_of_decode_trailer_short {bs : List Byte} (h : decode .trailer bs = .error .short) : bs.length < 8 := by
  rw [decode, decodeTrailer_eq] at h
  split_ifs at h with h8
  exact Nat.lt_of_not_le h8

/-- Only a header has a magic (R231). -/
theorem bytes_of_decode_badMagic {pos : Position} {bs : List Byte} (h : decode pos bs = .error .badMagic) :
    pos = .header ∧ 4 ≤ bs.length ∧ bs.take 4 ≠ [0x71, 0x6F, 0x69, 0x66] := by
  cases pos with
  | header =>
    rw [decode, decodeHeader_eq] at h
    split_ifs at h with h4 hmagic
    · cases h
    · exact ⟨rfl, Nat.le_of_not_lt h4, hmagic⟩
    · cases h
  | chunk =>
    cases bs with
    | nil => cases h
    | cons b more =>
      obtain ⟨-, hdecode⟩ | ⟨i, left, hdecode, -⟩ := decode_chunk_cons_cases b more <;> cases hdecode.symm.trans h
  | trailer =>
    rw [decode, decodeTrailer_eq] at h
    split_ifs at h
    cases h

/-! ## The errors of DEC -/

/-- The phase and the counts enable the step DEC's position names; the converse of `decPosition_of_enabledAt`. -/
theorem enabledAt_of_decPosition {d : Dec} {pos : Position} (h : decPosition d = some pos) :
    enabledAt pos d = true := by
  unfold decPosition at h
  split_ifs at h with hheader hchunk htrailer <;> cases h
  · exact hheader
  · exact hchunk
  · exact htrailer

/-- Which error a turn of DEC raises, from what cause, and the bytes it leaves of `bin` (R230 to R236). -/
inductive DecRaises (d : Dec) (bin : List Byte) (binEnd : Bool) : ErrCode → List Byte → Prop
  | badMagic (phase : d.phase = .header) (whole : 4 ≤ bin.length)
      (magic : bin.take 4 ≠ [0x71, 0x6F, 0x69, 0x66]) : DecRaises d bin binEnd .format (bin.drop 4)
  | shortHeader (ended : binEnd = true) (phase : d.phase = .header) (short : bin.length < 14)
      (magic : bin.length < 4 ∨ bin.take 4 = [0x71, 0x6F, 0x69, 0x66]) : DecRaises d bin binEnd .truncated []
  | shortChunk (ended : binEnd = true) (phase : d.phase = .chunks) (more : d.count < d.total)
      (short : bin = [] ∨ ∃ b bs, bin = b :: bs ∧ bs.length + 1 < chunkLength (tagKind b)) :
      DecRaises d bin binEnd .truncated []
  | shortTrailer (ended : binEnd = true) (phase : d.phase = .chunks) (all : d.count = d.total)
      (short : bin.length < 8) : DecRaises d bin binEnd .truncated []
  | badChannels (phase : d.phase = .header) (whole : 14 ≤ bin.length) (magic : bin.take 4 = [0x71, 0x6F, 0x69, 0x66])
      (channels : ¬(bin.getD 12 0 = 3 ∨ bin.getD 12 0 = 4)) :
      DecRaises d bin binEnd .unsupportedChannel (bin.drop 14)
  | overrun (b : Byte) (bs : List Byte) (phase : d.phase = .chunks) (more : d.count < d.total) (bytes : bin = b :: bs)
      (kind : tagKind b = .run) (past : d.total.toNat < d.count.toNat + (b.toNat % 64 + 1)) :
      DecRaises d bin binEnd .runOverrun bs

theorem DecRaises.ne_none {d : Dec} {bin left : List Byte} {binEnd : Bool} {code : ErrCode}
    (h : DecRaises d bin binEnd code left) : code ≠ .none := by
  cases h <;> simp

/-- No error is raised or cleared in DEC: `err` is kept and ERROR is not entered. -/
def DecErrKept (d d' : Dec) : Prop := d'.err = d.err ∧ (d'.phase = .error → d.phase = .error)

/-- The same of ENC. -/
def EncErrKept (e e' : Enc) : Prop := e'.err = e.err ∧ (e'.phase = .error → e.phase = .error)

/-- A unit read from the head of BIN raises an error by its channel count or by its run, or none. -/
theorem exec_keeps_or_raises {s t : State} {pos : Position} {i : Instr} {left : List Byte}
    (hdecode : decode pos s.bin = .ok (i, left)) (h : exec i (leaveBytes left s) = .next t) :
    DecErrKept s.dec t.dec
      ∨ ∃ code, DecRaises s.dec s.bin s.binEnd code left ∧ t = raise .dec code (leaveBytes left s) := by
  obtain ⟨_, _, _, _, -, hphase, -, rfl⟩ | ⟨w, hh, c, sp, rfl, hphase, hc, rfl⟩ | ⟨-, -, -, _, rfl⟩ | ⟨-, -, _, -, rfl⟩
    | ⟨-, -, _, -, -, rfl⟩ | ⟨hphase, hmore, n, rfl, hover, rfl⟩ | ⟨-, -, -, rfl⟩ := exec_next_cases h
  · exact .inl ⟨rfl, by simp [headerLatched]⟩
  · obtain rfl : Position.header = pos := position_of_decode hdecode
    obtain ⟨hwhole, hmagic, rfl, rfl⟩ := bytes_of_decode_header hdecode
    have hchannels := mt (legalChannels_iff _).2 (Bool.eq_false_iff.1 hc)
    exact .inr ⟨_, .badChannels hphase hwhole hmagic hchannels, rfl⟩
  · exact .inl ⟨rfl, id⟩
  · exact .inl ⟨rfl, id⟩
  · exact .inl ⟨rfl, id⟩
  · obtain rfl : Position.chunk = pos := position_of_decode hdecode
    obtain ⟨b, hbytes, hkind, rfl⟩ := byte_of_decode_run hdecode
    exact .inr ⟨_, .overrun b left hphase hmore hbytes hkind hover, rfl⟩
  · exact .inl ⟨rfl, by simp⟩

/-- An input that ended short of the unit is truncated at the unit's position (R232). -/
theorem truncated_of_short {s : State} {pos : Position} (hpos : decPosition s.dec = some pos)
    (hdecode : decode pos s.bin = .error .short) (hend : s.binEnd = true) :
    DecRaises s.dec s.bin s.binEnd .truncated [] := by
  have henabled := enabledAt_of_decPosition hpos
  cases pos with
  | header =>
    obtain ⟨hshort, hmagic⟩ := length_of_decode_header_short hdecode
    exact .shortHeader hend ((decHeaderEnabled_iff _).1 henabled) hshort hmagic
  | chunk =>
    obtain ⟨hphase, hmore⟩ := (decChunkEnabled_iff _).1 henabled
    exact .shortChunk hend hphase hmore (short_of_decode_chunk hdecode)
  | trailer =>
    obtain ⟨hphase, hall⟩ := (decTrailerEnabled_iff _).1 henabled
    exact .shortTrailer hend hphase hall (length_of_decode_trailer_short hdecode)

/-- DEC's turn raises an error from its cause, writing `err` and the phase and taking bytes, or it raises none. -/
theorem decTurn_keeps_or_raises {s t : State} (h : decTurn s = .next t) :
    DecErrKept s.dec t.dec
      ∨ ∃ code left, DecRaises s.dec s.bin s.binEnd code left ∧ t = raise .dec code (leaveBytes left s) := by
  obtain ⟨-, hturn⟩ | ⟨pos, hpos, ⟨i, left, hdecode, hturn⟩ | ⟨hdecode, hturn⟩ | ⟨hdecode, hturn⟩⟩ :=
      decTurn_cases s <;> rw [hturn] at h
  · cases h
    exact .inl ⟨rfl, id⟩
  · exact (exec_keeps_or_raises hdecode h).imp_right fun ⟨code, hraises, ht⟩ => ⟨code, left, hraises, ht⟩
  · cases h
    by_cases hend : s.binEnd = true
    · exact .inr ⟨_, _, truncated_of_short hpos hdecode hend, if_pos hend⟩
    · rw [decShort, if_neg hend]
      exact .inl ⟨rfl, id⟩
  · cases h
    obtain ⟨rfl, hwhole, hmagic⟩ := bytes_of_decode_badMagic hdecode
    exact .inr ⟨_, _, .badMagic ((decHeaderEnabled_iff _).1 (enabledAt_of_decPosition hpos)) hwhole hmagic, rfl⟩

/-! ## Errors over a step -/

theorem step_of_takesTurn {s : State} {c : Context} (h : takesTurn c s) :
    ∃ agenda turn, step s = contextTurn c { s with agenda := agenda, turn := turn } := by
  obtain ⟨rest, hs⟩ | ⟨hs, rfl⟩ := h
  · exact ⟨rest, s.turn, step_of_agenda hs⟩
  · exact ⟨s.agenda, _, step_of_idleAgenda hs⟩

/-- A step leaves DEC's `err` and does not enter ERROR, or resets or starts DEC, or is a turn of DEC that raises an
error. -/
theorem step_decErr_cases {s t : State} (h : step s = .next t) :
    DecErrKept s.dec t.dec
      ∨ (∃ rest, s.agenda = .reset :: rest ∧ t.dec = Dec.reset)
      ∨ (∃ rest, s.agenda = .decStart :: rest ∧ decBusy s.dec = false ∧ t.dec = decStarted)
      ∨ takesTurn .dec s ∧ ∃ code left agenda turn, DecRaises s.dec s.bin s.binEnd code left
          ∧ t = raise .dec code { s with agenda := agenda, turn := turn, bin := left } := by
  have hchange := step_decChange h
  generalize hd : t.dec = d at hchange ⊢
  cases hchange with
  | kept => exact .inl ⟨rfl, id⟩
  | reset move => exact .inr (.inl ⟨_, move, rfl⟩)
  | started move free => exact .inr (.inr (.inl ⟨_, move, free, rfl⟩))
  | taken move result =>
    obtain ⟨agenda, turn, hstep⟩ := step_of_takesTurn move
    subst hd
    obtain hkept | ⟨code, left, hraises, ht⟩ := decTurn_keeps_or_raises (hstep.symm.trans h)
    · exact .inl hkept
    · exact .inr (.inr (.inr ⟨move, code, left, agenda, turn, hraises, ht⟩))

/-- A step leaves ENC's `err` and does not enter ERROR, or resets or starts ENC. -/
theorem step_encErr_cases {s t : State} (h : step s = .next t) :
    EncErrKept s.enc t.enc
      ∨ (∃ rest, s.agenda = .reset :: rest ∧ t.enc = Enc.reset)
      ∨ ∃ w hh c sp rest, s.agenda = .encStart w hh c sp :: rest ∧ encBusy s.enc = false
          ∧ t.enc = encStarted w hh c sp := by
  have hchange := step_encChange h
  generalize t.enc = e at hchange ⊢
  cases hchange with
  | kept => exact .inl ⟨rfl, id⟩
  | reset move => exact .inr (.inl ⟨_, move, rfl⟩)
  | started w hh c sp move free => exact .inr (.inr ⟨w, hh, c, sp, _, move, free, rfl⟩)
  | taken move result =>
    cases result with
    | waited => exact .inl ⟨rfl, id⟩
    | coded q => exact .inl ⟨encPixelState_err _ _, by rw [encPixelState_phase]; exact id⟩
    | finished => exact .inl ⟨rfl, by simp⟩

/-- An accepted `EncStart` with an illegal channel count emits nothing (R110, R233). -/
theorem step_of_encStart_unsupported {s : State} {w h : Dim} {c sp : Byte} {rest : List Move}
    (hs : s.agenda = .encStart w h c sp :: rest) (hfree : encBusy s.enc = false) (hc : ¬(c = 3 ∨ c = 4)) :
    step s = .next { s with agenda := rest, enc := encStarted w h c sp } := by
  rw [step_of_agenda hs, performMove, encStart_eq]
  simp [hfree, mt (legalChannels_iff c).1 hc]

/-- Settles O30: an error of DEC is raised by its turn, and writes `err` and the phase; ENC's is raised by its start. -/
theorem errorsArePrecise : Obligations.ErrorsArePrecise := by
  intro s t h
  constructor <;> intro hbefore hafter
  · obtain ⟨-, hkept⟩ | ⟨rest, -, hd⟩ | ⟨rest, -, -, hd⟩ | ⟨-, code, left, agenda, turn, hraises, rfl⟩ :=
      step_decErr_cases h
    · exact absurd (hkept hafter) hbefore
    · simp [hd, Dec.reset] at hafter
    · simp [hd, decStarted] at hafter
    · exact ⟨rfl, hraises.ne_none, rfl⟩
  · obtain ⟨-, hkept⟩ | ⟨rest, -, he⟩ | ⟨w, hh, c, sp, rest, hs, hfree, he⟩ := step_encErr_cases h
    · exact absurd (hkept hafter) hbefore
    · simp [he, Enc.reset] at hafter
    · have hc : ¬(c = 3 ∨ c = 4) := fun hc => by simp [he, encStarted_of_legal w hh sp hc] at hafter
      rw [step_of_encStart_unsupported hs hfree hc] at h
      cases h
      exact ⟨by rw [encStarted_of_illegal w hh sp hc], rfl, rfl⟩

/-- Settles O33: reset and the starts clear `err`, but for the start with an illegal channel count; all other errors are
those of DEC's turn, each from its cause. -/
theorem errorsHaveTheListedCauses : Obligations.ErrorsHaveTheListedCauses := by
  intro s t h
  constructor <;> intro hnew
  · obtain ⟨herr, hkept⟩ | ⟨rest, hs, he⟩ | ⟨w, hh, c, sp, rest, hs, hfree, he⟩ := step_encErr_cases h
    · exact (hnew.elim (· herr) fun ⟨hbefore, hafter⟩ => hbefore (hkept hafter)).elim
    · rw [he]
      exact ⟨rest, .inl hs⟩
    · by_cases hc : c = 3 ∨ c = 4
      · rw [he, encStarted_of_legal w hh sp hc]
        exact ⟨rest, .inr ⟨w, hh, c, sp, hs, hfree, hc⟩⟩
      · rw [he, encStarted_of_illegal w hh sp hc]
        exact ⟨w, hh, c, sp, rest, hs, hfree, not_or.1 hc⟩
  · obtain ⟨herr, hkept⟩ | ⟨rest, hs, hd⟩ | ⟨rest, hs, hfree, hd⟩ | ⟨hturn, code, left, _, _, hraises, rfl⟩ :=
      step_decErr_cases h
    · exact (hnew.elim (· herr) fun ⟨hbefore, hafter⟩ => hbefore (hkept hafter)).elim
    · rw [hd]
      exact ⟨rest, .inl hs⟩
    · rw [hd]
      exact ⟨rest, .inr ⟨hs, hfree⟩⟩
    · cases hraises with
      | badMagic phase whole magic => exact ⟨hturn, phase, whole, magic⟩
      | shortHeader ended phase short magic => exact ⟨hturn, ended, rfl, .inl ⟨phase, short, magic⟩⟩
      | shortChunk ended phase more short => exact ⟨hturn, ended, rfl, .inr (.inl ⟨phase, more, short⟩)⟩
      | shortTrailer ended phase all short => exact ⟨hturn, ended, rfl, .inr (.inr ⟨phase, all, short⟩)⟩
      | badChannels phase whole magic channels => exact ⟨hturn, phase, whole, magic, not_or.1 channels⟩
      | overrun b _ phase more bytes kind past => exact ⟨hturn, phase, more, b, _, bytes, kind, past⟩

/-- Settles O31: of the rows of R30 only reset and the starts leave ERROR. -/
theorem onlyStartOrResetLeavesError : Obligations.OnlyStartOrResetLeavesError := by
  intro s t h
  obtain ⟨henc, hdec⟩ := phasesChangeOnlyAsListed s t h
  constructor <;> intro hbefore hafter
  · obtain hkept | ⟨rest, hs, -⟩ | ⟨rest, hs, -⟩ | ⟨-, hphase, -⟩ | ⟨-, hphase, -⟩ | ⟨-, hphase, -⟩ := hdec
    · exact absurd (hkept.trans hbefore) hafter
    · exact ⟨rest, .inl hs⟩
    · exact ⟨rest, .inr hs⟩
    all_goals simp [hbefore] at hphase
  · obtain hkept | ⟨rest, hs, -⟩ | ⟨w, hh, c, sp, rest, hs, -⟩ | ⟨-, hphase, -⟩ := henc
    · exact absurd (hkept.trans hbefore) hafter
    · exact ⟨rest, .inl hs⟩
    · exact ⟨rest, .inr ⟨w, hh, c, sp, hs⟩⟩
    · simp [hbefore] at hphase

/-! ## Rest -/

theorem encTurn_of_resting {s : State} (h : encBusy s.enc = false) : encTurn s = s := by
  obtain hphase | hphase | hphase := (encBusy_eq_false_iff _).1 h <;>
    simp [encTurn, encPixelEnabled, encFinishEnabled, hphase]

theorem decTurn_of_resting {s : State} (h : decBusy s.dec = false) : decTurn s = .next s := by
  obtain hphase | hphase | hphase := (decBusy_eq_false_iff _).1 h <;>
    simp [decTurn, decPosition, decHeaderEnabled, decChunkEnabled, decTrailerEnabled, hphase]

/-- Settles O29: in the phases at rest no step of the context is enabled. -/
theorem contextAtRestDoesNothing : Obligations.ContextAtRestDoesNothing := by
  intro s c rest hs hrest
  rw [step_of_agenda hs]
  cases c with
  | enc =>
    exact congrArg Host.Outcome.next
      (encTurn_of_resting (s := { s with agenda := rest }) ((encBusy_eq_false_iff _).2 hrest))
  | dec => exact decTurn_of_resting (s := { s with agenda := rest }) ((decBusy_eq_false_iff _).2 hrest)

/-! ## Refusals -/

/-- A unit has its meaning exactly where its position's step is enabled (R30). -/
theorem exec_eq_whenEnabled (i : Instr) (s : State) :
    ∃ t, exec i s = whenEnabled (enabledAt i.position s.dec) t := by
  cases i <;> exact ⟨_, rfl⟩

/-- A turn never stops: a unit is decoded at the position that is enabled (R230). -/
theorem contextTurn_next (c : Context) (s : State) : ∃ t, contextTurn c s = .next t := by
  cases c with
  | enc => exact ⟨_, rfl⟩
  | dec =>
    obtain ⟨-, hturn⟩ | ⟨pos, hpos, ⟨i, left, hdecode, hturn⟩ | ⟨-, hturn⟩ | ⟨-, hturn⟩⟩ := decTurn_cases s
    · exact ⟨_, hturn⟩
    · obtain ⟨t, hexec⟩ := exec_eq_whenEnabled i (leaveBytes left s)
      have henabled : enabledAt i.position (leaveBytes left s).dec = true := by
        rw [position_of_decode hdecode]
        exact enabledAt_of_decPosition hpos
      exact ⟨t, hturn.trans (hexec.trans (whenEnabled_next.2 ⟨henabled, rfl⟩))⟩
    · exact ⟨_, hturn⟩
    · exact ⟨_, hturn⟩

/-- The moves that are refused, each exactly when the environment does not have it (U16, R262). -/
theorem performMove_refused_iff {m : Move} {s : State} {r : Refusal} :
    performMove m s = .refused r ↔
      (r = .bytesAfterEnd ∧ s.binEnd = true ∧ decBusy s.dec = true ∧ ∃ bs, m = .bytes bs)
        ∨ (r = .withdrawnInCall ∧
          (m = .dropBytes ∧ decBusy s.dec = true ∨ m = .dropPixels ∧ encBusy s.enc = true)) := by
  cases m with
  | reset | encStart | decStart | pixels | endBytes => simp [performMove]
  | bytes bs =>
    cases hend : s.binEnd <;> cases hbusy : decBusy s.dec <;>
      simp [performMove, presentBytes, hend, hbusy, @eq_comm _ r]
  | dropPixels =>
    rw [performMove, withdrawPixels]
    split_ifs with hbusy <;> simp [hbusy, @eq_comm _ r]
  | dropBytes =>
    rw [performMove, withdrawBytes]
    split_ifs with hbusy <;> simp [hbusy, @eq_comm _ r]
  | turn c =>
    obtain ⟨t, hturn⟩ := contextTurn_next c s
    simp [performMove, hturn]

/-- Settles O44: a step is the move at the agenda's head, or a turn, which never stops. -/
theorem stepStopsOnlyOnForeignMoves : Obligations.StepStopsOnlyOnForeignMoves := by
  intro s r
  cases hs : s.agenda with
  | nil =>
    obtain ⟨t, hturn⟩ := contextTurn_next s.turn { s with turn := otherContext s.turn }
    simp [step_of_idleAgenda hs, hturn]
  | cons m rest => simp [step_of_agenda hs, performMove_refused_iff, exists_or]

end Sys2Proof.Machine
end

section
/-! PROOFS. Waiting (spec/70_reset_and_hazards.md R266): the turn of a context whose input has not arrived. -/

namespace Sys2Proof.Machine

open Sys2Proof

/-- With pixels left to code and none presented ENC's turn is to wait (R266); beside `encTurn_of_presented`. -/
theorem encTurn_of_noPixel {s : State} (hphase : s.enc.phase = .pixels) (hmore : s.enc.pos < s.enc.total)
    (hpin : s.pin = []) : encTurn s = s := by
  rw [encTurn, if_pos ((encPixelEnabled_iff _).2 ⟨hphase, hmore⟩)]
  simp only [encTake, hpin]

/-- Settles O28: ENC's turn without a pixel is `encTurn_of_noPixel`; DEC's without the bytes of its unit is a short read
before the input has ended (R52). -/
theorem waitingChangesNothing : Obligations.WaitingChangesNothing := by
  constructor
  · intro s rest hs hphase hmore hpin
    rw [step_of_agenda hs]
    exact congrArg Host.Outcome.next (encTurn_of_noPixel (s := { s with agenda := rest }) hphase hmore hpin)
  · intro s rest pos hs henabled hend hshort
    rw [step_of_decode_short hs (decPosition_of_enabledAt henabled) hshort,
      if_neg (ne_true_of_eq_false hend)]

end Sys2Proof.Machine
end

section
/-! PROOFS. Where a unit has no transition (spec/10_state.md R30). -/

namespace Sys2Proof.Machine

open Sys2Proof

/-- What is not enabled is refused; the other half of `whenEnabled_next`. -/
theorem whenEnabled_refused {b : Bool} (t : State) (h : b = false) : whenEnabled b t = .refused .stepNotEnabled :=
  if_neg (ne_true_of_eq_false h)

/-- Settles O24: a unit has a meaning only where its position's step is enabled. -/
theorem disabledUnitIsRefused : Obligations.DisabledUnitIsRefused := by
  intro i s hdisabled
  obtain ⟨t, hexec⟩ := exec_eq_whenEnabled i s
  exact hexec.trans (whenEnabled_refused t hdisabled)

end Sys2Proof.Machine
end

section
/-! PROOFS. The sources (spec/20_memory.md R51, R52, spec/70_reset_and_hazards.md R262): the units they present, and the
level `bin_end` over a step. -/

namespace Sys2Proof.Machine

open Sys2Proof

/-- Settles O56: bytes are accepted while `bin_end` is low or DEC is not busy; Pixels always are. -/
theorem presentingLengthensTheInput : Obligations.PresentingLengthensTheInput := by
  constructor
  · intro s bs rest hs hallowed
    have haccepted : s.binEnd = true → decBusy s.dec = false := fun hend =>
      (decBusy_eq_false_iff _).2 (hallowed.resolve_left (ne_false_of_eq_true hend))
    rw [step_of_agenda hs]
    exact presentBytes_next.2 ⟨haccepted, rfl⟩
  · intro s ps rest hs
    exact step_of_agenda hs

/-! ## What a turn and a start leave of `bin_end` -/

theorem encStart_binEnd (w h : Dim) (c sp : Byte) (s : State) : (encStart w h c sp s).binEnd = s.binEnd := by
  rw [encStart_eq_join]
  rfl

theorem encTurn_binEnd (s : State) : (encTurn s).binEnd = s.binEnd := by
  rw [encTurn_eq_join]
  rfl

/-- An accepted `DecStart` lowers the level, an ignored one holds it (R52, log 4). -/
theorem decStart_binEnd (s : State) : (decStart s).binEnd = (s.binEnd && decBusy s.dec) := by
  rw [decStart_eq]
  cases decBusy s.dec <;> simp

theorem decShort_binEnd (s : State) : (decShort s).binEnd = s.binEnd := by
  unfold decShort
  split <;> rfl

/-- DEC reads the level and does not write it. -/
theorem decTurn_binEnd {s t : State} (h : decTurn s = .next t) : t.binEnd = s.binEnd := by
  obtain ⟨-, hturn⟩ | ⟨pos, -, ⟨i, left, -, hturn⟩ | ⟨-, hturn⟩ | ⟨-, hturn⟩⟩ := decTurn_cases s <;>
    rw [hturn] at h
  · cases h
    rfl
  · obtain ⟨-, -, -, hend, -⟩ := exec_leaves_outside h
    exact hend
  · cases h
    exact decShort_binEnd s
  · cases h
    rfl

/-! ## `bin_end` over a step -/

/-- The level `bin_end` after the move at the agenda's head, DEC being `busy` or not (R52, log 4). -/
def levelAfter (level busy : Bool) : Option Move → Bool
  | some .endBytes => true
  | some .decStart => level && busy
  | _ => level

/-- A low level rises with one move only. -/
theorem levelAfter_low_iff (busy : Bool) (move : Option Move) :
    levelAfter false busy move = true ↔ move = some .endBytes := by
  unfold levelAfter
  split <;> simp_all

/-- A high level falls with one move only, in a context that is not busy. -/
theorem levelAfter_high_iff (busy : Bool) (move : Option Move) :
    levelAfter true busy move = false ↔ move = some .decStart ∧ busy = false := by
  unfold levelAfter
  split <;> simp_all

/-- Every step takes the level to what its move makes of it. -/
theorem step_binEnd {s t : State} (h : step s = .next t) :
    t.binEnd = levelAfter s.binEnd (decBusy s.dec) s.agenda.head? := by
  obtain ⟨agenda, turn, -, ⟨hm, rfl⟩ | ⟨w, hh, c, sp, hm, rfl⟩ | ⟨hm, rfl⟩ | ⟨ps, hm, rfl⟩ | ⟨bs, hm, -, rfl⟩ | ⟨hm, rfl⟩
    | ⟨hm, -, rfl⟩ | ⟨hm, -, rfl⟩ | ⟨hm | ⟨hm, -⟩, rfl⟩ | ⟨hm | ⟨hm, -⟩, hturn⟩⟩ := step_next_cases h <;> rw [hm]
  · rfl
  · exact encStart_binEnd w hh c sp _
  · exact decStart_binEnd _
  · rfl
  · rfl
  · rfl
  · rfl
  · rfl
  · exact encTurn_binEnd _
  · exact encTurn_binEnd _
  · exact (decTurn_binEnd hturn :)
  · exact (decTurn_binEnd hturn :)

/-- Settles O9: `levelAfter` at its two inputs. -/
theorem binEndHoldsUntilDecStart : Obligations.BinEndHoldsUntilDecStart := by
  intro s t h
  rw [step_binEnd h]
  constructor <;> intro hlevel <;> rw [hlevel]
  · rw [levelAfter_low_iff, List.head?_eq_some_iff]
  · rw [levelAfter_high_iff, List.head?_eq_some_iff, exists_and_right]

end Sys2Proof.Machine
end
